-- ==== Sys2Proof/Word.lean ====
section
/-! DEFINITION. The two word types of DYCODEC: the byte and the 16-bit register (spec/00_scope.md R11,
spec/10_state.md R21). -/

namespace Sys2Proof

/-- A byte, 0 to 255, bit 7 the most significant (R11). -/
abbrev Byte := BitVec 8

/-- The contents of a 16-bit register: `ELEN`, `ILEN`, `OLEN`, `VAL` (R21). -/
abbrev Half := BitVec 16

end Sys2Proof
end

