-- ==== Sys2Proof/Syntax.lean ====
section
/-! DEFINITION. The instructions of DYCODEC: one constructor for each row of spec/opcode_table.json. Twelve operation
words (spec/30_encoding.md R81), the 27 driver-level commands of the known wire opcodes (spec/44_wire_commands.md
R214) and the two reply formats (R90). -/

namespace Sys2Proof

/-- One row of the opcode table each.

* The operation words take no operand: every operation reads the same fixed registers (R21).
* A driver-level command for which R214 writes no operand has none.
* A driver-level command for which R214 writes an operand carries the payload the host loads, 0 to 255 bytes (R185):
  how many bytes it has and what they mean is not settled by the spec (R116, R185; log entry 9). The operand forms of
  R214 are `driver…` in Machine/Script.lean.
* A path command carries the device code and the path's bytes, index 0 the first character (R151).
* A combination carries its entries, two bytes each (R170).
* A reply carries its 5 or 6 bytes in the order received (R90). -/
inductive Instr where
  -- operation words (R81)
  | nop
  | build
  | encpath
  | bpath
  | bcomb
  | decode
  | decu16
  | decenumPlayState
  | decenumDevice
  | decenumEqualizer
  | decenumCycleMode
  | decenumPreviousDirPolicy
  -- driver-level commands (R187 to R213)
  | queryPlayState
  | play
  | pause
  | stop
  | previous
  | next
  | playByNumber (payload : List Byte)
  | playByPath (dev : Byte) (path : List Byte)
  | getDevice
  | setDevice (payload : List Byte)
  | getSoundCount
  | getPlayingSound
  | previousDirE
  | previousDirF
  | stopInterlude
  | getFirstInDir
  | getSoundCountDir
  | setVolume (payload : List Byte)
  | volumeUp
  | volumeDown
  | interludeByPath (dev : Byte) (path : List Byte)
  | setCycleMode (payload : List Byte)
  | setCycleTimes (payload : List Byte)
  | setEq (payload : List Byte)
  | combinationPlay (entries : List (Byte × Byte))
  | endCombinationPlay
  | select (payload : List Byte)
  -- reply formats (R90)
  | reply5 (b0 b1 b2 status ck : Byte)
  | reply6 (b0 b1 b2 hi lo ck : Byte)
deriving DecidableEq, Repr

end Sys2Proof
end

