-- ==== Sys2Proof/WellFormed.lean ====
section
/-! DEFINITION. Which instructions have words: the operands that one length byte can count (spec/30_encoding.md R85,
R87, R89). -/

namespace Sys2Proof

/-- The number of operand bytes a length byte must count: payload, path or entry bytes. -/
def Instr.operandBytes : Instr → Nat
  | .playByNumber p => p.length
  | .playByPath _ p => p.length
  | .setDevice p => p.length
  | .setVolume p => p.length
  | .interludeByPath _ p => p.length
  | .setCycleMode p => p.length
  | .setCycleTimes p => p.length
  | .setEq p => p.length
  | .combinationPlay es => 2 * es.length
  | .select p => p.length
  | .nop | .build | .encpath | .bpath | .bcomb | .decode | .decu16 => 0
  | .decenumPlayState | .decenumDevice | .decenumEqualizer | .decenumCycleMode | .decenumPreviousDirPolicy => 0
  | .queryPlayState | .play | .pause | .stop | .previous | .next | .getDevice => 0
  | .getSoundCount | .getPlayingSound | .previousDirE | .previousDirF | .stopInterlude => 0
  | .getFirstInDir | .getSoundCountDir | .volumeUp | .volumeDown | .endCombinationPlay => 0
  | .reply5 .. | .reply6 .. => 0

/-- A well-formed instruction: its operand bytes fit a length byte, "payload length must fit in one byte (0–255)"
(R6 `MAX_PAYLOAD`); so a combination has at most 127 entries (R89). The other operands are typed by their widths. -/
def Instr.wellFormed (i : Instr) : Bool :=
  i.operandBytes ≤ 255

end Sys2Proof
end

