-- ==== Sys2Proof/Decode.lean ====
section
/-! DEFINITION. The decoder, total on any bytes, and after it the encoder (spec/30_encoding.md R80 to R97).

The table's rows stand in three positions, and which position bytes stand in is not told by the bytes ("a reply is
recognised by position and length, not by content", R97): the 8-bit operation word written to `CTRL`, the driver-level
command of the host's script, and the bytes that come in from the line. -/

namespace Sys2Proof

/-- The position an instruction's words stand in. -/
inductive Port where
  /-- the data of a host write to `CTRL` (R22, R80) -/
  | ctrl
  /-- a driver-level command in the host's script, told by the first two bytes of the frame it builds (R97, R214) -/
  | driver
  /-- bytes received from the module (R90) -/
  | line
deriving DecidableEq, Repr

/-- Why bytes are no instruction. -/
inductive DecodeError where
  /-- there are fewer bytes than the instruction has -/
  | truncated
  /-- operation word with bit 7 set (R82) -/
  | reservedBit7
  /-- operation word with `OPSEL` 8 to 15 (R82) -/
  | reservedOpsel
  /-- operation word with `KIND` nonzero and `OPSEL` not 7 (R82) -/
  | kindWithoutDecenum
  /-- operation word with `OPSEL` 7 and `KIND` 5 to 7 (R82) -/
  | reservedKind
  /-- a command that does not begin with `HEADER` = `0xAA` (R85) -/
  | noHeader
  /-- a wire opcode that is not in the spec's list (R93) -/
  | unlistedOpcode
  /-- operand bytes for a command that R214 writes without an operand -/
  | unexpectedPayload
  /-- a number of entry bytes that is odd (R170) -/
  | oddEntries
  /-- received bytes that are neither 5 nor 6 in number (R90) -/
  | notAReplyLength
deriving DecidableEq, Repr

/-! ### The operation word -/

/-- `OPSEL` = `w[3:0]` (R80). -/
def opselOf (w : Byte) : Nat :=
  (w.extractLsb 3 0).toNat

/-- `KIND` = `w[6:4]` (R80). -/
def kindOf (w : Byte) : Nat :=
  (w.extractLsb 6 4).toNat

/-- The operation of a legal `OPSEL` and `KIND` (R81, R83). -/
def operationOf (opsel kind : Nat) : Instr :=
  match opsel with
  | 0 => .nop
  | 1 => .build
  | 2 => .encpath
  | 3 => .bpath
  | 4 => .bcomb
  | 5 => .decode
  | 6 => .decu16
  | _ =>
    match kind with
    | 0 => .decenumPlayState
    | 1 => .decenumDevice
    | 2 => .decenumEqualizer
    | 3 => .decenumCycleMode
    | _ => .decenumPreviousDirPolicy

/-- R82, test by test. -/
def decodeWord (w : Byte) : Except DecodeError Instr :=
  if w.getLsbD 7 then .error .reservedBit7
  else if 8 ≤ opselOf w then .error .reservedOpsel
  else if opselOf w ≠ 7 ∧ kindOf w ≠ 0 then .error .kindWithoutDecenum
  else if opselOf w = 7 ∧ 5 ≤ kindOf w then .error .reservedKind
  else .ok (operationOf (opselOf w) (kindOf w))

/-! ### The driver-level command

Its words are `0xAA`, the wire opcode, the number `n` of operand bytes the host loads into `IBUF`, for a path command
the device code, then the operand bytes. For the rows of format `F-CMD` and `F-COMB` this is the frame they build, less
its derived checksum byte (R85, R86, R89); for the two path rows the path stands as the host gives it, since the
frame's path bytes do not determine it (R163; log entry 10). -/

/-- `HEADER` (R6). -/
def header : Byte := 0xAA

/-- The first `n` bytes as the operand, and the rest. -/
def takeOperand (mk : List Byte → Instr) (n : Nat) (rest : List Byte) : Except DecodeError (Instr × List Byte) :=
  if rest.length < n then .error .truncated else .ok (mk (rest.take n), rest.drop n)

/-- A command without an operand. -/
def takeNothing (i : Instr) (n : Nat) (rest : List Byte) : Except DecodeError (Instr × List Byte) :=
  if n = 0 then .ok (i, rest) else .error .unexpectedPayload

/-- A path command: device code, then `n` path bytes. -/
def takePath (mk : Byte → List Byte → Instr) (n : Nat) (rest : List Byte) : Except DecodeError (Instr × List Byte) :=
  match rest with
  | [] => .error .truncated
  | dev :: tail => takeOperand (mk dev) n tail

/-- Bytes two by two, in order (R170). -/
def pairUp : List Byte → List (Byte × Byte)
  | a :: b :: rest => (a, b) :: pairUp rest
  | _ => []

/-- The entries laid end to end (R170). -/
def entryBytes : List (Byte × Byte) → List Byte
  | [] => []
  | (a, b) :: es => a :: b :: entryBytes es

/-- A combination: `n` entry bytes, `n` even. -/
def takeEntries (n : Nat) (rest : List Byte) : Except DecodeError (Instr × List Byte) :=
  if n % 2 = 1 then .error .oddEntries
  else takeOperand (fun bs => .combinationPlay (pairUp bs)) n rest

/-- The command of a wire opcode (R92), with `n` operand bytes. -/
def decodeOpcode (opc : Byte) (n : Nat) (rest : List Byte) : Except DecodeError (Instr × List Byte) :=
  match opc.toNat with
  | 0x01 => takeNothing .queryPlayState n rest
  | 0x02 => takeNothing .play n rest
  | 0x03 => takeNothing .pause n rest
  | 0x04 => takeNothing .stop n rest
  | 0x05 => takeNothing .previous n rest
  | 0x06 => takeNothing .next n rest
  | 0x07 => takeOperand .playByNumber n rest
  | 0x08 => takePath .playByPath n rest
  | 0x0A => takeNothing .getDevice n rest
  | 0x0B => takeOperand .setDevice n rest
  | 0x0C => takeNothing .getSoundCount n rest
  | 0x0D => takeNothing .getPlayingSound n rest
  | 0x0E => takeNothing .previousDirE n rest
  | 0x0F => takeNothing .previousDirF n rest
  | 0x10 => takeNothing .stopInterlude n rest
  | 0x11 => takeNothing .getFirstInDir n rest
  | 0x12 => takeNothing .getSoundCountDir n rest
  | 0x13 => takeOperand .setVolume n rest
  | 0x14 => takeNothing .volumeUp n rest
  | 0x15 => takeNothing .volumeDown n rest
  | 0x17 => takePath .interludeByPath n rest
  | 0x18 => takeOperand .setCycleMode n rest
  | 0x19 => takeOperand .setCycleTimes n rest
  | 0x1A => takeOperand .setEq n rest
  | 0x1B => takeEntries n rest
  | 0x1C => takeNothing .endCombinationPlay n rest
  | 0x1F => takeOperand .select n rest
  | _ => .error .unlistedOpcode

/-- A driver-level command from the front of the bytes, and the bytes after it. -/
def decodeCommand (bs : List Byte) : Except DecodeError (Instr × List Byte) :=
  match bs with
  | h :: opc :: n :: rest => if h = header then decodeOpcode opc n.toNat rest else .error .noHeader
  | _ => .error .truncated

/-! ### The reply -/

/-- A reply is told by its length alone (R90, R97); no value of its bytes is looked at (R134). -/
def decodeReply (bs : List Byte) : Except DecodeError (Instr × List Byte) :=
  match bs with
  | [b0, b1, b2, st, ck] => .ok (.reply5 b0 b1 b2 st ck, [])
  | [b0, b1, b2, hi, lo, ck] => .ok (.reply6 b0 b1 b2 hi lo ck, [])
  | _ => .error .notAReplyLength

/-- The decoder: the instruction at the front of the bytes in a position, and the bytes after it. -/
def decode (p : Port) (bs : List Byte) : Except DecodeError (Instr × List Byte) :=
  match p with
  | .ctrl =>
    match bs with
    | [] => .error .truncated
    | w :: rest => (decodeWord w).map fun i => (i, rest)
  | .driver => decodeCommand bs
  | .line => decodeReply bs

/-! ### The encoder -/

/-- The position an instruction stands in. -/
def portOf : Instr → Port
  | .nop | .build | .encpath | .bpath | .bcomb | .decode | .decu16 => .ctrl
  | .decenumPlayState | .decenumDevice | .decenumEqualizer | .decenumCycleMode | .decenumPreviousDirPolicy => .ctrl
  | .reply5 .. | .reply6 .. => .line
  | .queryPlayState | .play | .pause | .stop | .previous | .next => .driver
  | .playByNumber _ | .playByPath .. | .getDevice | .setDevice _ | .getSoundCount | .getPlayingSound => .driver
  | .previousDirE | .previousDirF | .stopInterlude | .getFirstInDir | .getSoundCountDir | .setVolume _ => .driver
  | .volumeUp | .volumeDown | .interludeByPath .. | .setCycleMode _ | .setCycleTimes _ | .setEq _ => .driver
  | .combinationPlay _ | .endCombinationPlay | .select _ => .driver

/-- The words of a command: header, opcode, count, operand bytes. -/
def commandWords (opc : Byte) (payload : List Byte) : List Byte :=
  [header, opc, BitVec.ofNat 8 payload.length] ++ payload

/-- The words of a path command. -/
def pathWords (opc dev : Byte) (path : List Byte) : List Byte :=
  [header, opc, BitVec.ofNat 8 path.length, dev] ++ path

/-- The words of a well-formed instruction (R81, R92, R90). -/
def encode : Instr → List Byte
  | .nop => [0x00]
  | .build => [0x01]
  | .encpath => [0x02]
  | .bpath => [0x03]
  | .bcomb => [0x04]
  | .decode => [0x05]
  | .decu16 => [0x06]
  | .decenumPlayState => [0x07]
  | .decenumDevice => [0x17]
  | .decenumEqualizer => [0x27]
  | .decenumCycleMode => [0x37]
  | .decenumPreviousDirPolicy => [0x47]
  | .queryPlayState => commandWords 0x01 []
  | .play => commandWords 0x02 []
  | .pause => commandWords 0x03 []
  | .stop => commandWords 0x04 []
  | .previous => commandWords 0x05 []
  | .next => commandWords 0x06 []
  | .playByNumber p => commandWords 0x07 p
  | .playByPath dev p => pathWords 0x08 dev p
  | .getDevice => commandWords 0x0A []
  | .setDevice p => commandWords 0x0B p
  | .getSoundCount => commandWords 0x0C []
  | .getPlayingSound => commandWords 0x0D []
  | .previousDirE => commandWords 0x0E []
  | .previousDirF => commandWords 0x0F []
  | .stopInterlude => commandWords 0x10 []
  | .getFirstInDir => commandWords 0x11 []
  | .getSoundCountDir => commandWords 0x12 []
  | .setVolume p => commandWords 0x13 p
  | .volumeUp => commandWords 0x14 []
  | .volumeDown => commandWords 0x15 []
  | .interludeByPath dev p => pathWords 0x17 dev p
  | .setCycleMode p => commandWords 0x18 p
  | .setCycleTimes p => commandWords 0x19 p
  | .setEq p => commandWords 0x1A p
  | .combinationPlay es => commandWords 0x1B (entryBytes es)
  | .endCombinationPlay => commandWords 0x1C []
  | .select p => commandWords 0x1F p
  | .reply5 b0 b1 b2 st ck => [b0, b1, b2, st, ck]
  | .reply6 b0 b1 b2 hi lo ck => [b0, b1, b2, hi, lo, ck]

/-! ### Words as the opcode table numbers them -/

/-- Byte `k` of a number, byte 0 the least significant. -/
def byteOf (w k : Nat) : Byte :=
  BitVec.ofNat 8 (w / 256 ^ k)

/-- The position and bytes of a word of spec/opcode_table.json. An 8-bit row is an operation word. A 16-bit row is over
`frame[0] * 256 + frame[1]`, so the more significant byte comes first (R97); what the table gives no bits for is zero,
and with a count of zero operand bytes no command has more than four words.
A 16-bit value whose first byte is not `HEADER` selects no frame row, only the rows whose mask is 0: it is the front of
a reply of zeros, the shorter one (log entry 11). A row of 40 or 48 bits is a reply, first byte least significant. -/
def tableWords (nbits w : Nat) : Port × List Byte :=
  if nbits ≤ 8 then (.ctrl, [byteOf w 0])
  else if nbits ≤ 16 then
    if byteOf w 1 = header then (.driver, [byteOf w 1, byteOf w 0, 0, 0])
    else (.line, [byteOf w 1, byteOf w 0, 0, 0, 0])
  else if nbits ≤ 40 then (.line, [byteOf w 0, byteOf w 1, byteOf w 2, byteOf w 3, byteOf w 4])
  else (.line, [byteOf w 0, byteOf w 1, byteOf w 2, byteOf w 3, byteOf w 4, byteOf w 5])

/-- The instruction the decoder reads from a word of the opcode table. -/
def decodeTableWord (nbits w : Nat) : Option Instr :=
  match decode (tableWords nbits w).1 (tableWords nbits w).2 with
  | .ok (i, _) => some i
  | .error _ => none

end Sys2Proof
end

