-- ==== Sys2Proof/Config.lean ====
section
/-! DEFINITION. What an implementation of DYCODEC fixes (the three open parameters of spec/00_scope.md R7), and
the free values of the model: what the transport answers to an `RX` nobody has scripted (spec/10_state.md R40). -/

namespace Sys2Proof

/-- The five closed enumerations, in the order of `KIND` (R83). -/
inductive EnumKind where
  | playState
  | device
  | equalizer
  | cycleMode
  | previousDirPolicy
deriving DecidableEq, Repr

/-- `ENUMTAB`: for each enumeration the finite set of its known codes (R7, R141), one list each. -/
structure EnumTab where
  playState : List Byte
  device : List Byte
  equalizer : List Byte
  cycleMode : List Byte
  previousDirPolicy : List Byte
deriving DecidableEq, Repr

/-- `ENUMTAB(KIND)`. -/
def EnumTab.members (t : EnumTab) : EnumKind → List Byte
  | .playState => t.playState
  | .device => t.device
  | .equalizer => t.equalizer
  | .cycleMode => t.cycleMode
  | .previousDirPolicy => t.previousDirPolicy

/-- The three parameters the source leaves open (R7). A machine carries one `Config`, which no step changes; every
claim is for every `Config`. -/
structure Config where
  /-- `GLYPH`, the byte put in place of `.` and `/` inside a path. -/
  glyph : Byte
  /-- `IN_CAP`, the number of bytes of `IBUF`. -/
  inCap : Nat
  /-- `ENUMTAB`, the known codes of the five enumerations. -/
  enumTab : EnumTab
deriving DecidableEq, Repr

/-- What the spec demands of the parameters: `IN_CAP` is at least 256 (R7) and is a legal value of the 16-bit `ILEN`
(R28; DEDUCED, log entry 3); `0x01` (`Sd`) is a `Device` and `0x7F` is no `PlayState` (R141). -/
abbrev Config.wf (c : Config) : Prop :=
  256 ≤ c.inCap ∧ c.inCap ≤ 65535 ∧ (0x01 : Byte) ∈ c.enumTab.device ∧ (0x7F : Byte) ∉ c.enumTab.playState

/-- The defaults the spec recommends (R7, R141). PRESUMED by the spec itself, from general knowledge, but for `Sd`
(log entry 2): `State.reset` carries them, no claim rests on them. -/
def Config.standard : Config where
  glyph := 0x2A
  inCap := 512
  enumTab :=
    { playState := [0x00, 0x01, 0x02]
      device := [0x00, 0x01, 0x02]
      equalizer := [0x00, 0x01, 0x02, 0x03, 0x04]
      cycleMode := [0x00, 0x01, 0x02, 0x03, 0x04, 0x05, 0x06, 0x07]
      previousDirPolicy := [0x00, 0x01] }

/-- FREE VALUE: the bytes that reach `RXQ` while the `k`-th unscripted `RX` waits (R40, R249, U4: arbitrary;
log entry 7). -/
opaque Config.rxArrived : Nat → List Byte

/-- FREE VALUE: how many bytes the transport's timeouts let the `k`-th unscripted `RX` move (R249, R250, U4;
log entry 7). -/
opaque Config.rxLimit : Nat → Nat

end Sys2Proof
end

