-- ==== Sys2Proof/Machine/State.lean ====
section
/-! DEFINITION. The state of the machine as plain data: the codec (spec/10_state.md R20), the link to the module with
its receive queue (R40), and the host with its script (R26, R94); why a step can stop; the state after reset (R43). -/

namespace Sys2Proof.Machine

/-- A buffer's bytes that hold a value: (index, byte) pairs, indices strictly rising. An index with no pair is a byte
of no defined value (R39): it reads as nothing at all, so no pair ever repeats what an unlisted index reads as. -/
abbrev Memory := List Host.Cell

/-- Indices strictly rising. -/
def Memory.rising : Memory → Bool
  | [] => true
  | [_] => true
  | c :: d :: m => decide (c.1 < d.1) && Memory.rising (d :: m)

/-- The canonical form, in a buffer of `cap` bytes. -/
def Memory.wf (cap : Nat) (m : Memory) : Bool :=
  Memory.rising m && m.all fun c => decide (c.1 < cap)

/-- The nine registers (R21). -/
inductive Reg where
  | ctrl | status | opc | dev | elen | ilen | olen | val | acc
deriving DecidableEq, Repr

/-- A host write of a register other than `CTRL`, typed by the register's width (R36). DESIGN CHOICE: a
script may name the four read-only registers, which R94's `WR` does not list (log entry 22). -/
inductive RegWrite where
  | status (v : Byte)
  | opc (v : Byte)
  | dev (v : Byte)
  | elen (v : Half)
  | ilen (v : Half)
  | olen (v : Half)
  | val (v : Half)
  | acc (v : Byte)
deriving DecidableEq, Repr

/-- The two buffers, address spaces of bytes (R60). -/
inductive BufferSpace where
  | ibuf | obuf
deriving DecidableEq, Repr

/-- What happens next to the machine. The first eight are the host's actions (R94), `command` a driver-level command of
R214 by its words; `arrive` is the module's bytes reaching the receive queue (R40), `reset` the reset input (R260). -/
inductive Event where
  /-- `OP`: a host write of a word to `CTRL`, the only way to start an operation (R22) -/
  | op (w : Byte)
  /-- `WR`: a host write of a register; that it may name a read-only one is log entry 22 -/
  | wr (w : RegWrite)
  /-- `RD`: a host read of a register -/
  | rd (r : Reg)
  /-- `WB`: a host write of one byte of `IBUF` -/
  | wb (i : Nat) (b : Byte)
  /-- `RB`: a host read of one byte of `OBUF` -/
  | rb (i : Nat)
  /-- `DRAIN` (R247) -/
  | drain
  /-- `TX` (R248) -/
  | tx
  /-- `RX <n>` (R249) -/
  | rx (n : Nat)
  /-- a driver-level command (R214), by its words (Decode.lean) -/
  | command (bs : List Byte)
  /-- bytes from the module reach `RXQ` (R40) -/
  | arrive (bs : List Byte)
  /-- the codec's reset input (R260) -/
  | reset
deriving DecidableEq, Repr

/-- The codec's whole state (R20). -/
structure Codec where
  /-- register 0, the operation word (R22) -/
  ctrl : Byte
  /-- register 1, result code and `EFAIL` (R23) -/
  status : Byte
  /-- register 2, wire opcode operand (R24) -/
  opc : Byte
  /-- register 3, device code operand (R25) -/
  dev : Byte
  /-- register 4, expected reply length operand (R27) -/
  elen : Half
  /-- register 5, number of valid bytes in `IBUF` (R28) -/
  ilen : Half
  /-- register 6, number of valid bytes in `OBUF` (R29) -/
  olen : Half
  /-- register 7, extracted value (R32) -/
  val : Half
  /-- register 8, checksum accumulator (R33) -/
  acc : Byte
  /-- the input buffer, `IN_CAP` bytes (R30) -/
  ibuf : Memory
  /-- the output buffer, 259 bytes (R31) -/
  obuf : Memory
deriving DecidableEq, Repr

/-- What the transport does in one `RX`: the bytes that reach `RXQ` while it waits, and the most it moves before its
timeouts end the wait (R246, R249, R250). -/
structure RxAnswer where
  arrived : List Byte
  limit : Nat
deriving DecidableEq, Repr

/-- The transport and the link, outside the codec (R9, R40). -/
structure Link where
  /-- `RXQ`, the bytes that have arrived and nobody has read, oldest first (R40) -/
  rxq : List Byte
  /-- the answers a listing states for the next `RX`s, "`RX <n>` ... `<- <bytes>`" (R94); a model's own field -/
  answers : List RxAnswer
  /-- how many `RX`s have taken a free answer (`Config.rxArrived`, `Config.rxLimit`); a model's own field -/
  rxCount : Nat
  /-- the bytes handed to the transport so far, in the order transmitted (R62, R248) -/
  wire : List Byte
deriving DecidableEq, Repr

/-- How far the exchange has come (R266), which decides whether the next command may be sent (R267, R274; log
entry 14). -/
inductive Exchange where
  /-- no command is in flight: the last exchange has ended, or none has begun -/
  | closed
  /-- a command that has a reply has been sent, and no `RX` has read of the reply -/
  | replyDue
  /-- an `RX` has returned fewer bytes than it asked for, and no decoding operation has run since -/
  | replyShort
  /-- an `RX` has returned every byte it asked for, and no decoding operation has run since -/
  | replyRead
deriving DecidableEq, Repr

/-- The host (R9): what is left of its script (R26), and what its last read of a register or buffer byte gave it (a
model's own field, so that a read has a result a claim can name; log entries 1 and 16). -/
structure HostSide where
  script : List Event
  readback : Option Half
deriving DecidableEq, Repr

structure State where
  /-- the parameters of R7, which no step changes -/
  params : Config
  codec : Codec
  link : Link
  host : HostSide
  /-- the exchange between the host and the module (R18, R266) -/
  exchange : Exchange
deriving DecidableEq, Repr

/-- Why a step stops with a fault: an access to a buffer byte that does not exist or has no defined value. -/
inductive Fault where
  /-- An operation other than `NOP` whose `ILEN` covers an `IBUF` byte that nothing has written since reset: "a fault
  of the host's script" (R39, U9); and a host read of such a byte, which must be given no value (R39). Safe. -/
  | unwrittenInput
  /-- `RB` or `TX` of an `OBUF` byte that holds no defined value (R39, R94, U9). Safe. -/
  | unspecifiedOutput
  /-- `WB`, a host read, or the loading of an operand, at an `IBUF` index that does not exist (R66). Safe. -/
  | noInputIndex
  /-- `RB` at an `OBUF` index that does not exist (R66). Safe. -/
  | noOutputIndex
deriving DecidableEq, Repr

/-- Why a step has no meaning: a move the host does not have. -/
inductive Refusal where
  /-- An instruction whose meaning is not written yet: raised by the arms of `exec` only. -/
  | notModelled (mnemonic : String)
  /-- `TX` when the last operation did not leave `ERR = OK` and `OLEN > 0` (R248, R268, U8). Safe. -/
  | nothingToSend
  /-- `TX` before the exchange of an earlier command has ended: "a second command before the first exchange has ended"
  is a move the model lacks (R274; R266, R267, U1; log entry 14). Safe. -/
  | exchangeOpen
  /-- `RX <len>` with `len` outside 1 to `IN_CAP` (R249). Safe. -/
  | rxLength
  /-- A driver-level command that is none of R214. Safe. -/
  | notACommand
deriving DecidableEq, Repr

/-- The codec after reset: all nine registers zero, every buffer byte unspecified (R43, R260). -/
def Codec.reset : Codec where
  ctrl := 0x00
  status := 0x00
  opc := 0x00
  dev := 0x00
  elen := 0x0000
  ilen := 0x0000
  olen := 0x0000
  val := 0x0000
  acc := 0x00
  ibuf := []
  obuf := []

/-- The machine after reset, with given parameters. The spec gives the link and the host no reset value ("`RXQ` is not
reset by the codec's reset and may hold anything", R43, R262): an empty queue, nothing sent, no exchange
open and an empty script are a DESIGN CHOICE (log entries 4 and 5). -/
def State.resetWith (params : Config) : State where
  params := params
  codec := Codec.reset
  link := { rxq := [], answers := [], rxCount := 0, wire := [] }
  host := { script := [], readback := none }
  exchange := .closed

/-- The machine after reset, with the parameters' defaults (R7). -/
def State.reset : State :=
  State.resetWith Config.standard

end Sys2Proof.Machine
end

