-- ==== Sys2Proof/Machine/Flags.lean ====
section
/-! DEFINITION. `STATUS`: the result codes and the flag `EFAIL` (spec/10_state.md R23, R34; spec/60_exceptions.md
R230). -/

namespace Sys2Proof.Machine

/-- The result codes an operation can leave (R230); codes 5 and 6 are never produced. -/
inductive ResultCode where
  | ok
  | invalidPayloadLength
  | emptyPath
  | shortRead
  | checksumMismatch
  | badOperand
deriving DecidableEq, Repr

/-- The number of a result code (R230). -/
def codeNumber : ResultCode → Byte
  | .ok => 0
  | .invalidPayloadLength => 1
  | .emptyPath => 2
  | .shortRead => 3
  | .checksumMismatch => 4
  | .badOperand => 7

/-- `STATUS` with a code in bits 2:0 and `EFAIL` in bit 3, bits 7:4 zero (R23). -/
def statusByte (code : ResultCode) (efail : Bool) : Byte :=
  codeNumber code ||| (if efail then 0x08 else 0x00)

/-- `STATUS.ERR` (R23). -/
def errOf (status : Byte) : Byte :=
  status &&& 0x07

/-- `STATUS.EFAIL` (R23). -/
def efailOf (status : Byte) : Bool :=
  status.getLsbD 3

/-- What an error exit leaves in `EFAIL`: 1 when the operation word's `OPSEL` is 7, else 0 (R233, R139). -/
def efailOnError (ctrl : Byte) : Bool :=
  opselOf ctrl == 7

end Sys2Proof.Machine
end

