-- ==== Sys2Proof/Machine/Memory.lean ====
section
/-! DEFINITION. Reading and writing the two byte buffers, one byte an access (spec/00_scope.md R15 `MemRead`,
`MemWrite`; spec/20_memory.md R65). -/

namespace Sys2Proof.Machine

/-- The byte at an index; `none` where no value is defined (R39). -/
def memRead : Memory → Nat → Option Byte
  | [], _ => none
  | c :: m, a => if c.1 = a then some c.2 else memRead m a

/-- Store one byte, keeping the canonical form. -/
def memWrite : Memory → Nat → Byte → Memory
  | [], a, b => [(a, b)]
  | c :: m, a, b =>
    if a < c.1 then (a, b) :: c :: m
    else if a = c.1 then (a, b) :: m
    else c :: memWrite m a b

/-- Store bytes at `base`, `base + 1`, ... (R15: `MemWrite` for every index of the sequence). -/
def memWriteBytes : Memory → Nat → List Byte → Memory
  | m, _, [] => m
  | m, base, b :: bs => memWriteBytes (memWrite m base b) (base + 1) bs

/-- The `n` bytes from `base` on; `none` as soon as one of them holds no value. -/
def memReadBytes (m : Memory) (base : Nat) : Nat → Option (List Byte)
  | 0 => some []
  | n + 1 =>
    match memRead m base, memReadBytes m (base + 1) n with
    | some b, some bs => some (b :: bs)
    | _, _ => none

end Sys2Proof.Machine
end

