-- ==== Sys2Proof/Machine/Operands.lean ====
section
/-! DEFINITION. What the operations compute from their operands, as functions on bytes: the checksum (spec/00_scope.md
R13), upper-casing (R14), the path payload (spec/42_path_encoder.md R152, R153), the running sum of a combination
(spec/43_combination_play.md R172), the tests on a reply (spec/41_reply_decoder.md R132), the 16-bit value (R63). -/

namespace Sys2Proof.Machine

/-- The additive checksum, mod 256 (R13). -/
def sum8 : List Byte → Byte
  | [] => 0
  | b :: bs => b + sum8 bs

/-- A body followed by its checksum byte (R86). -/
def sealFrame (body : List Byte) : List Byte :=
  body ++ [sum8 body]

/-- The body of an `F-CMD` frame: header, opcode, length byte, payload (R85). -/
def frameBody (opc : Byte) (payload : List Byte) : List Byte :=
  [header, opc, BitVec.ofNat 8 payload.length] ++ payload

/-! ### Paths -/

/-- `/`, the separator of path components (R150). -/
def slash : Byte := 0x2F

/-- `.`, the separator of the extension (R150). -/
def dot : Byte := 0x2E

/-- ASCII upper-casing; every other byte stays (R14). -/
def upper (c : Byte) : Byte :=
  if 0x61 ≤ c ∧ c ≤ 0x7A then c - 0x20 else c

/-- `t`, the transformation of every path byte after the first (R153). -/
def transform (glyph c : Byte) : Byte :=
  if c = dot ∨ c = slash then glyph else upper c

/-- How many bytes of the path are `/`, a leading one included (R88). -/
def slashes (path : List Byte) : Nat :=
  path.countP (· == slash)

/-- 1 when the path starts with `/`, else 0 (R152). -/
def leading (path : List Byte) : Nat :=
  if path.head? = some slash then 1 else 0

/-- `new_len` (R88, R152). -/
def newLen (path : List Byte) : Nat :=
  path.length + slashes path - leading path

/-- `encode_path`: the tests of R152 in their order, then the payload `P-PATH` (R87). -/
def encodePath (glyph dev : Byte) (path : List Byte) : Except ResultCode (List Byte) :=
  match path with
  | [] => .error .emptyPath
  | first :: others =>
    if 255 < newLen path + 1 then .error .invalidPayloadLength
    else .ok ([BitVec.ofNat 8 (newLen path + 1), dev, first] ++ others.map (transform glyph))

/-! ### Combinations -/

/-- The constant opcode of a combination, `COMB_OPC` (R6). -/
def combOpcode : Byte := 0x1B

/-- The running sum carried over the entries, one entry at a time, in order (R172). -/
def addEntries (acc : Byte) : List Byte → Byte
  | a :: b :: rest => addEntries (acc + a + b) rest
  | _ => acc

/-! ### Replies -/

/-- What the tests of `DECODE` say of a reply: the code, the sum left in `ACC`, the exposed payload. -/
structure ReplyCheck where
  code : ResultCode
  acc : Byte
  payload : List Byte
deriving DecidableEq, Repr

/-- The exposed payload `raw[3..n-1)`, empty when `n <= 4` (R137). -/
def replyPayload (raw : List Byte) : List Byte :=
  raw.dropLast.drop 3

/-- The tests of R132 in their order. The reply is the whole of `raw`, `expected` only its least length (R135); the
bytes at indices 0 to 2 are summed and not otherwise examined (R134). -/
def checkReply (expected : Nat) (raw : List Byte) : ReplyCheck :=
  if expected = 0 then { code := .badOperand, acc := 0, payload := [] }
  else if raw.length < expected then { code := .shortRead, acc := 0, payload := [] }
  else if sum8 raw.dropLast ≠ raw.getLastD 0 then
    { code := .checksumMismatch, acc := sum8 raw.dropLast, payload := [] }
  else { code := .ok, acc := sum8 raw.dropLast, payload := replyPayload raw }

/-- A byte as a 16-bit value (R11). -/
def zext16 (b : Byte) : Half :=
  b.setWidth 16

/-- A 16-bit value from two bytes, the more significant first (R63). -/
def be16 (hi lo : Byte) : Half :=
  BitVec.ofNat 16 (hi.toNat * 256 + lo.toNat)

/-- The two bytes of a number, the more significant first (R214: `[n / 256, n mod 256]`). -/
def numberBytes (n : Half) : List Byte :=
  [BitVec.ofNat 8 (n.toNat / 256), BitVec.ofNat 8 (n.toNat % 256)]

/-! ### Wire commands -/

/-- Does a frame's command have a reply (R186)? PRESUMED by the spec for `0x0D`, `0x11` and for "no reply" of every
other listed opcode; an unlisted opcode is taken as having none (log entry 8). -/
def expectsReply (frame : List Byte) : Bool :=
  match frame with
  | h :: opc :: _ => h == header && [(0x01 : Byte), 0x0A, 0x0C, 0x0D, 0x11, 0x12].contains opc
  | _ => false

end Sys2Proof.Machine
end

