-- ==== Sys2Proof/Machine/Ops.lean ====
section
/-! DEFINITION. The operations every meaning is made of: registers, the start and the error exit of a codec operation
(spec/10_state.md R35, spec/60_exceptions.md R233), the host's buffer accesses (spec/30_encoding.md R94), and the
transport's three actions (spec/60_exceptions.md R247 to R249). -/

namespace Sys2Proof.Machine

/-- The outcome of a step of this machine. -/
abbrev Result := Host.Outcome State Fault Refusal

/-- Go on from a next state; a stop stays a stop. -/
def andThen (r : Result) (k : State → Result) : Result :=
  match r with
  | .next s => k s
  | .fault f => .fault f
  | .refused f => .refused f

/-! ### Registers -/

/-- `x[i]` by name, zero-extended to 16 bits (R15, R21). -/
def readReg (r : Reg) (c : Codec) : Half :=
  match r with
  | .ctrl => zext16 c.ctrl
  | .status => zext16 c.status
  | .opc => zext16 c.opc
  | .dev => zext16 c.dev
  | .elen => c.elen
  | .ilen => c.ilen
  | .olen => c.olen
  | .val => c.val
  | .acc => zext16 c.acc

/-- A register's number (R21). -/
def regNumber : Reg → Nat
  | .ctrl => 0
  | .status => 1
  | .opc => 2
  | .dev => 3
  | .elen => 4
  | .ilen => 5
  | .olen => 6
  | .val => 7
  | .acc => 8

/-- A host write of a register other than `CTRL`: stored whole in `OPC`, `DEV`, `ELEN`, `ILEN`; nothing in the four
read-only registers (R36; that a script may name them is log entry 22). -/
def hostWrite (w : RegWrite) (c : Codec) : Codec :=
  match w with
  | .opc v => { c with opc := v }
  | .dev v => { c with dev := v }
  | .elen v => { c with elen := v }
  | .ilen v => { c with ilen := v }
  | .status _ => c
  | .olen _ => c
  | .val _ => c
  | .acc _ => c

/-! ### A codec operation -/

/-- The write of the operation word and step 1 of every operation: `CTRL <- w`, then all result state is cleared (R22,
R35, R111). With `OLEN = 0` every byte of `OBUF` is without a defined value (R39; log entry 18). -/
def beginOp (w : Byte) (c : Codec) : Codec :=
  { c with ctrl := w, status := 0x00, olen := 0, val := 0, acc := 0, obuf := [] }

/-- The error exit `raise <Code>` (R233). `ACC` keeps what the operation had written to it. -/
def raiseCode (code : ResultCode) (c : Codec) : Codec :=
  { c with status := statusByte code (efailOnError c.ctrl), olen := 0, val := 0, obuf := [] }

/-- The number of bytes of `OBUF` (R31). -/
def obufCap : Nat := 259

/-- `OBUF <- s` (R15): `MemWrite` of every byte, then `OLEN <- len(s)`. A decoding operation can expose more bytes than
`OBUF` has (R135, R137, D8: the payload of a reply of 264 bytes or more); those at indices that do not exist are not
stored (R66, D5; log entry 12). -/
def emit (bytes : List Byte) (c : Codec) : Codec :=
  { c with obuf := memWriteBytes [] 0 (bytes.take obufCap), olen := BitVec.ofNat 16 bytes.length }

/-- `OBUF <- s`, `ACC <- ck`, `STATUS.ERR <- OK`. -/
def succeed (bytes : List Byte) (ck : Byte) (c : Codec) : Codec :=
  { emit bytes c with acc := ck, status := statusByte .ok false }

/-- A reserved operation word: stored in `CTRL`, the result state cleared, `BadOperand` (R84). -/
def reservedWord (w : Byte) (s : State) : Result :=
  .next { s with codec := raiseCode .badOperand (beginOp w s.codec) }

/-- The words of the decoding operations (R81). -/
def decodingWords : List Byte :=
  [0x05, 0x06, 0x07, 0x17, 0x27, 0x37, 0x47]

/-- Step 4 of an exchange ends with the decoding operation, whatever its result code, once an `RX` has read of the reply
(R266; log entry 14). -/
def exchangeAfterOp (w : Byte) (e : Exchange) : Exchange :=
  if decodingWords.contains w then
    match e with
    | .replyDue => .replyDue
    | _ => .closed
  else e

/-- The state in which the operation of word `w` ends, its codec given. -/
def endOp (w : Byte) (c : Codec) (s : State) : State :=
  { s with codec := c, exchange := exchangeAfterOp w s.exchange }

/-- A legal operation word other than `NOP` (R111): step 1; the guard `ILEN > IN_CAP` (R231); then the operation's own
rule `body` on `in = IBUF[0..ILEN)`. An input byte that nothing has written is a fault of the host's script (R39; log
entry 6). -/
def operate (w : Byte) (body : Config → List Byte → Codec → Codec) (s : State) : Result :=
  let c := beginOp w s.codec
  if s.params.inCap < s.codec.ilen.toNat then .next (endOp w (raiseCode .badOperand c) s)
  else
    match memReadBytes s.codec.ibuf 0 s.codec.ilen.toNat with
    | none => .fault .unwrittenInput
    | some input => .next (endOp w (body s.params input c) s)

/-! ### The host's buffer accesses -/

/-- `WB <i>, <b>` (R94); an index at or beyond `IN_CAP` does not exist (R66). -/
def writeInput (i : Nat) (b : Byte) (s : State) : Result :=
  if i < s.params.inCap then .next { s with codec := { s.codec with ibuf := memWrite s.codec.ibuf i b } }
  else .fault .noInputIndex

/-- What a host read gives goes to the host; a read has no side effect (R36; log entry 16). -/
def giveHost (v : Half) (s : State) : State :=
  { s with host := { s.host with readback := some v } }

/-- A host read of `IBUF[i]` (R30, R60); a byte that nothing has written has no value to give (R39). No action of the
script makes it (R94, R274; log entry 21). -/
def readInput (i : Nat) (s : State) : Result :=
  if s.params.inCap ≤ i then .fault .noInputIndex
  else
    match memRead s.codec.ibuf i with
    | none => .fault .unwrittenInput
    | some b => .next (giveHost (zext16 b) s)

/-- `RB <i>` of `OBUF` (R94): legal below `OLEN`; the byte goes to the host. -/
def readOutput (i : Nat) (s : State) : Result :=
  if obufCap ≤ i then .fault .noOutputIndex
  else if s.codec.olen.toNat ≤ i then .fault .unspecifiedOutput
  else
    match memRead s.codec.obuf i with
    | none => .fault .unspecifiedOutput
    | some b => .next (giveHost (zext16 b) s)

/-- The host's read of one byte of a buffer, its access to the address space (R60, R65). -/
def readByte (space : BufferSpace) (i : Nat) (s : State) : Result :=
  match space with
  | .ibuf => readInput i s
  | .obuf => readOutput i s

/-- `RD <r>` (R94): no state of the codec changes (R36). -/
def readRegister (r : Reg) (s : State) : Result :=
  .next (giveHost (readReg r s.codec) s)

/-- `WR <r>, <v>` (R94). -/
def writeRegister (w : RegWrite) (s : State) : Result :=
  .next { s with codec := hostWrite w s.codec }

/-- `LDI <bytes>` (R95) as one operation: the bytes into `IBUF` from index 0 on, their number into `ILEN`. -/
def loadInput (bytes : List Byte) (s : State) : Result :=
  if bytes.length ≤ s.params.inCap then
    .next { s with codec := { s.codec with
      ibuf := memWriteBytes s.codec.ibuf 0 bytes
      ilen := BitVec.ofNat 16 bytes.length } }
  else .fault .noInputIndex

/-! ### The transport -/

/-- Bytes from the module reach the end of `RXQ` (R40). -/
def arriveBytes (bytes : List Byte) (s : State) : State :=
  { s with link := { s.link with rxq := s.link.rxq ++ bytes } }

/-- `bytes_available()` (R246). -/
def bytesAvailable (s : State) : Nat :=
  s.link.rxq.length

/-- "A host that gives up on a reply recovers by the `DRAIN` of its next exchange" (R267): one that has had no reply, or
a short one. A reply that has been read is there to be decoded (R266; log entry 14). -/
def exchangeAfterDrain (e : Exchange) : Exchange :=
  match e with
  | .replyRead => .replyRead
  | _ => .closed

/-- `DRAIN` (R247): every byte now in `RXQ` is discarded. -/
def drainQueue (s : State) : State :=
  { s with link := { s.link with rxq := [] }, exchange := exchangeAfterDrain s.exchange }

/-- The exchange after a frame has been sent: a command without a reply ends it, any other waits for its reply (R266). -/
def exchangeAfterSend (frame : List Byte) : Exchange :=
  if expectsReply frame then .replyDue else .closed

/-- `TX` (R248): legal when the last operation left `ERR = OK` and `OLEN > 0`, and the exchange of every earlier command
has ended (R266, R274; log entry 14).
`OBUF[0..OLEN)` goes out in index order as one stream; no codec state changes. -/
def transmit (s : State) : Result :=
  if errOf s.codec.status ≠ 0 ∨ s.codec.olen = 0 then .refused .nothingToSend
  else if s.exchange ≠ .closed then .refused .exchangeOpen
  else
    match memReadBytes s.codec.obuf 0 s.codec.olen.toNat with
    | none => .fault .unspecifiedOutput
    | some frame => .next { s with
        link := { s.link with wire := s.link.wire ++ frame }
        exchange := exchangeAfterSend frame }

/-- The transport's answer to the next `RX`: the one a listing states, or else a free one (R40, R249;
log entry 7). -/
def nextAnswer (l : Link) : RxAnswer :=
  match l.answers with
  | a :: _ => a
  | [] => { arrived := Config.rxArrived l.rxCount, limit := Config.rxLimit l.rxCount }

/-- `RXQ` when `read_into` moves its bytes: what was left unread, then what arrives during the wait (R246, R265). -/
def queueAtRead (l : Link) : List Byte :=
  l.rxq ++ (nextAnswer l).arrived

/-- `actual_count` of `read_into(buffer, n)`: at most `n`, at most what is there, at most what the timeouts allow
(R246, R249). -/
def actualCount (n : Nat) (l : Link) : Nat :=
  min (nextAnswer l).limit (min n (queueAtRead l).length)

/-- The bytes `read_into(buffer, n)` delivers: the front of the queue. -/
def delivered (n : Nat) (l : Link) : List Byte :=
  (queueAtRead l).take (actualCount n l)

/-- The link after `read_into(buffer, n)` (R246). -/
def linkAfterRead (n : Nat) (l : Link) : Link :=
  { l with
    rxq := (queueAtRead l).drop (actualCount n l)
    answers := l.answers.tail
    rxCount := if l.answers = [] then l.rxCount + 1 else l.rxCount }

/-- The exchange after an `RX` that was given all it asked for, or less (R266, R267; log entry 14). -/
def exchangeAfterRead (all : Bool) (e : Exchange) : Exchange :=
  match e with
  | .closed => .closed
  | .replyRead => .replyRead
  | _ => if all then .replyRead else .replyShort

/-- The state after a legal `RX <n>` (R249). -/
def afterReceive (n : Nat) (s : State) : State :=
  { s with
    codec := { s.codec with
      ibuf := memWriteBytes s.codec.ibuf 0 (delivered n s.link)
      ilen := BitVec.ofNat 16 (delivered n s.link).length }
    link := linkAfterRead n s.link
    exchange := exchangeAfterRead ((delivered n s.link).length == n) s.exchange }

/-- `RX <n>`, `1 <= n <= IN_CAP` (R249). -/
def receive (n : Nat) (s : State) : Result :=
  if 1 ≤ n ∧ n ≤ s.params.inCap then .next (afterReceive n s) else .refused .rxLength

/-! ### Reset -/

/-- A reply that an `RX` had put in `IBUF` is lost with it; the `DRAIN` of "the first exchange after reset" recovers
(R262, R267; log entry 14). -/
def exchangeAfterReset (e : Exchange) : Exchange :=
  match e with
  | .closed => .closed
  | _ => .replyDue

/-- The reset input (R260): the codec's registers zero, its buffers unspecified; the transport is not reset (R262). -/
def resetCodec (s : State) : State :=
  { s with codec := Codec.reset, exchange := exchangeAfterReset s.exchange }

end Sys2Proof.Machine
end

