-- ==== Sys2Proof/Machine/Combination.lean ====
section
/-! DEFINITION. The Combination-Play Sequence Builder family: `BCOMB` (spec/43_combination_play.md). -/

namespace Sys2Proof.Machine

/-- The rule of `BCOMB` on its entries laid end to end (R172), its tests in their order: no entries, no output (R173);
an odd length (R174); more than 127 entries (R175). -/
def buildCombination (entries : List Byte) (c : Codec) : Codec :=
  if entries.length = 0 then { c with status := statusByte .ok false }
  else if entries.length % 2 = 1 then raiseCode .badOperand c
  else if 255 < entries.length then raiseCode .invalidPayloadLength c
  else
    let head : List Byte := [header, combOpcode, BitVec.ofNat 8 entries.length]
    let ck := addEntries (sum8 head) entries
    succeed (head ++ entries ++ [ck]) ck c

/-- `BCOMB` (R172). -/
def execBcomb (s : State) : Result :=
  operate 0x04 (fun _ input c => buildCombination input c) s

end Sys2Proof.Machine
end

