-- ==== Sys2Proof/Machine/FrameBuilder.lean ====
section
/-! DEFINITION. The Frame Builder family: `NOP`, `BUILD` (spec/40_frame_builder.md). -/

namespace Sys2Proof.Machine

/-- `NOP` (R110): step 1 of every operation and nothing else; not even `ILEN` is read. -/
def execNop (s : State) : Result :=
  .next { s with codec := beginOp 0x00 s.codec }

/-- The rule of `BUILD` on its payload (R112): the frame is sealed with its checksum; a payload of more than 255 bytes
is rejected (R117). -/
def buildFrame (payload : List Byte) (c : Codec) : Codec :=
  if 255 < payload.length then raiseCode .invalidPayloadLength c
  else succeed (sealFrame (frameBody c.opc payload)) (sum8 (frameBody c.opc payload)) c

/-- `BUILD` (R112). -/
def execBuild (s : State) : Result :=
  operate 0x01 (fun _ input c => buildFrame input c) s

end Sys2Proof.Machine
end

