-- ==== Sys2Proof/Machine/PathEncoder.lean ====
section
/-! DEFINITION. The Path Encoder family: `ENCPATH`, `BPATH` (spec/42_path_encoder.md). -/

namespace Sys2Proof.Machine

/-- The rule of `ENCPATH` on its path (R152): no checksum is computed. -/
def encodePathOnly (p : Config) (path : List Byte) (c : Codec) : Codec :=
  match encodePath p.glyph c.dev path with
  | .error code => raiseCode code c
  | .ok out => succeed out c.acc c

/-- `ENCPATH` (R152). -/
def execEncpath (s : State) : Result :=
  operate 0x02 encodePathOnly s

/-- The rule of `BPATH` on its path (R160): the path payload's own length byte is the frame's. -/
def buildPathFrame (p : Config) (path : List Byte) (c : Codec) : Codec :=
  match encodePath p.glyph c.dev path with
  | .error code => raiseCode code c
  | .ok out => succeed (sealFrame ([header, c.opc] ++ out)) (sum8 ([header, c.opc] ++ out)) c

/-- `BPATH` (R160). -/
def execBpath (s : State) : Result :=
  operate 0x03 buildPathFrame s

end Sys2Proof.Machine
end

