-- ==== Sys2Proof/Machine/Replies.lean ====
section
/-! DEFINITION. The two reply formats (spec/30_encoding.md R90). A reply is "one complete inbound fixed-length message
from the module" (R17): its effect on the machine is that its bytes have arrived and wait in `RXQ` (R40), where the
host's `RX` finds them. The codec looks at none of them before a decoding operation does (R130, R134), so any values
may arrive, a wrong checksum included (log entry 13). -/

namespace Sys2Proof.Machine

/-- `REPLY5`, format `F-R5` (R90, R138). -/
def execReply5 (b0 b1 b2 status ck : Byte) (s : State) : Result :=
  .next (arriveBytes [b0, b1, b2, status, ck] s)

/-- `REPLY6`, format `F-R6` (R90, R136). -/
def execReply6 (b0 b1 b2 hi lo ck : Byte) (s : State) : Result :=
  .next (arriveBytes [b0, b1, b2, hi, lo, ck] s)

end Sys2Proof.Machine
end

