-- ==== Sys2Proof/Machine/ReplyDecoder.lean ====
section
/-! DEFINITION. The Reply Decoder family: `DECODE`, `DECU16`, `DECENUM` (spec/41_reply_decoder.md). -/

namespace Sys2Proof.Machine

/-- The pseudocode of R132 on a reply, then `extract` on the exposed payload when every test passed. `ACC` holds the
sum whenever it was computed, also through an error exit (R233). -/
def decodeThen (extract : List Byte → Codec → Codec) (raw : List Byte) (c : Codec) : Codec :=
  let r := checkReply c.elen.toNat raw
  match r.code with
  | .ok => extract r.payload (succeed r.payload r.acc c)
  | code => raiseCode code { c with acc := r.acc }

/-- The rule of `DECODE` (R132). -/
def decodeRaw (raw : List Byte) (c : Codec) : Codec :=
  decodeThen (fun _ c => c) raw c

/-- `DECODE` (R132). -/
def execDecode (s : State) : Result :=
  operate 0x05 (fun _ input c => decodeRaw input c) s

/-- The extraction of `DECU16` (R136): fewer than 2 payload bytes is `ShortRead`. -/
def extractU16 (payload : List Byte) (c : Codec) : Codec :=
  match payload with
  | hi :: lo :: _ => { c with val := be16 hi lo }
  | _ => raiseCode .shortRead c

/-- The rule of `DECU16` (R136). -/
def decodeU16 (raw : List Byte) (c : Codec) : Codec :=
  decodeThen extractU16 raw c

/-- `DECU16` (R136). -/
def execDecu16 (s : State) : Result :=
  operate 0x06 (fun _ input c => decodeU16 input c) s

/-- The extraction of `DECENUM` (R138): no payload byte is `ShortRead`; an unknown byte is the `Fail` sentinel, not an
error (R142). -/
def extractEnum (members : List Byte) (payload : List Byte) (c : Codec) : Codec :=
  match payload with
  | code :: _ => { c with val := zext16 code, status := statusByte .ok (!members.contains code) }
  | [] => raiseCode .shortRead c

/-- The rule of `DECENUM` for one enumeration (R138). On every error exit `EFAIL` is 1, because `OPSEL` is 7 (R139). -/
def decodeEnum (kind : EnumKind) (p : Config) (raw : List Byte) (c : Codec) : Codec :=
  decodeThen (extractEnum (p.enumTab.members kind)) raw c

/-- `DECENUM.PlayState` (R138). -/
def execDecenumPlayState (s : State) : Result :=
  operate 0x07 (decodeEnum .playState) s

/-- `DECENUM.Device` (R138). -/
def execDecenumDevice (s : State) : Result :=
  operate 0x17 (decodeEnum .device) s

/-- `DECENUM.Equalizer` (R138). -/
def execDecenumEqualizer (s : State) : Result :=
  operate 0x27 (decodeEnum .equalizer) s

/-- `DECENUM.CycleMode` (R138). -/
def execDecenumCycleMode (s : State) : Result :=
  operate 0x37 (decodeEnum .cycleMode) s

/-- `DECENUM.PreviousDirPolicy` (R138). -/
def execDecenumPreviousDirPolicy (s : State) : Result :=
  operate 0x47 (decodeEnum .previousDirPolicy) s

end Sys2Proof.Machine
end

