-- ==== Sys2Proof/Machine/WireCommands.lean ====
section
/-! DEFINITION. The driver-level commands of the 27 known wire opcodes (spec/44_wire_commands.md R187 to R214). Each is
what its expansion into host actions does (spec/30_encoding.md R95), as one step; Machine/Script.lean has the
expansions themselves. A command that builds a frame leaves it in `OBUF`, unsent ("is followed by `SEND` to transmit
it", R214); a `QUERY` sends, reads and decodes. -/

namespace Sys2Proof.Machine

/-- `CMD <opc>, <bytes>` (R95): `OPC`, the payload, `OP BUILD`. -/
def commandFrame (opc : Byte) (payload : List Byte) (s : State) : Result :=
  andThen (loadInput payload { s with codec := { s.codec with opc := opc } }) execBuild

/-- `PATHCMD <opc>, <dev>, <path>` (R95): `OPC`, `DEV`, the path, `OP BPATH`. -/
def pathFrame (opc dev : Byte) (path : List Byte) (s : State) : Result :=
  andThen (loadInput path { s with codec := { s.codec with opc := opc, dev := dev } }) execBpath

/-- The second half of a query: `WR ELEN, <n>`; `RX <n>`; the decoding operation of word `w`, on the bytes that `RX`
put in `IBUF[0..ILEN)` (R95, R266 step 4). -/
def readReply (n : Nat) (w : Byte) (body : Config → List Byte → Codec → Codec) (s : State) : Result :=
  if n ≤ s.params.inCap then
    let t := afterReceive n { s with codec := { s.codec with elen := BitVec.ofNat 16 n } }
    .next (endOp w (body t.params (delivered n s.link) (beginOp w t.codec)) t)
  else .refused .rxLength

/-- `QUERY8 <opc>, <kind>` and `QUERY16 <opc>` (R95): `CMD <opc>, []`; `SEND`; then the reply. -/
def queryFrame (opc : Byte) (n : Nat) (w : Byte) (body : Config → List Byte → Codec → Codec) (s : State) : Result :=
  andThen (andThen (commandFrame opc [] s) fun t => transmit (drainQueue t)) (readReply n w body)

/-- `QUERY_PLAY_STATE` = `QUERY8 0x01, PlayState` (R187, R214). -/
def execQueryPlayState (s : State) : Result :=
  queryFrame 0x01 5 0x07 (decodeEnum .playState) s

/-- `PLAY` = `CMD 0x02, []` (R188, R214). -/
def execPlay (s : State) : Result :=
  commandFrame 0x02 [] s

/-- `PAUSE` = `CMD 0x03, []` (R189, R214). -/
def execPause (s : State) : Result :=
  commandFrame 0x03 [] s

/-- `STOP` = `CMD 0x04, []` (R190, R214). -/
def execStop (s : State) : Result :=
  commandFrame 0x04 [] s

/-- `PREVIOUS` = `CMD 0x05, []` (R191, R214). -/
def execPrevious (s : State) : Result :=
  commandFrame 0x05 [] s

/-- `NEXT` = `CMD 0x06, []` (R192, R214). -/
def execNext (s : State) : Result :=
  commandFrame 0x06 [] s

/-- `PLAY_BY_NUMBER` = `CMD 0x07, <payload>` (R193, R214). -/
def execPlayByNumber (payload : List Byte) (s : State) : Result :=
  commandFrame 0x07 payload s

/-- `PLAY_BY_PATH` = `PATHCMD 0x08, <dev>, <path>` (R194, R214). -/
def execPlayByPath (dev : Byte) (path : List Byte) (s : State) : Result :=
  pathFrame 0x08 dev path s

/-- `GET_DEVICE` = `QUERY8 0x0A, Device` (R195, R214). -/
def execGetDevice (s : State) : Result :=
  queryFrame 0x0A 5 0x17 (decodeEnum .device) s

/-- `SET_DEVICE` = `CMD 0x0B, <payload>` (R196, R214). -/
def execSetDevice (payload : List Byte) (s : State) : Result :=
  commandFrame 0x0B payload s

/-- `GET_SOUND_COUNT` = `QUERY16 0x0C` (R197, R214). -/
def execGetSoundCount (s : State) : Result :=
  queryFrame 0x0C 6 0x06 (fun _ raw c => decodeU16 raw c) s

/-- `GET_PLAYING_SOUND` = `QUERY16 0x0D` (R198, R214). -/
def execGetPlayingSound (s : State) : Result :=
  queryFrame 0x0D 6 0x06 (fun _ raw c => decodeU16 raw c) s

/-- `PREVIOUS_DIR_E` = `CMD 0x0E, []` (R199, R214). -/
def execPreviousDirE (s : State) : Result :=
  commandFrame 0x0E [] s

/-- `PREVIOUS_DIR_F` = `CMD 0x0F, []` (R200, R214). -/
def execPreviousDirF (s : State) : Result :=
  commandFrame 0x0F [] s

/-- `STOP_INTERLUDE` = `CMD 0x10, []` (R201, R214). -/
def execStopInterlude (s : State) : Result :=
  commandFrame 0x10 [] s

/-- `GET_FIRST_IN_DIR` = `QUERY16 0x11` (R202, R214). -/
def execGetFirstInDir (s : State) : Result :=
  queryFrame 0x11 6 0x06 (fun _ raw c => decodeU16 raw c) s

/-- `GET_SOUND_COUNT_DIR` = `QUERY16 0x12` (R203, R214). -/
def execGetSoundCountDir (s : State) : Result :=
  queryFrame 0x12 6 0x06 (fun _ raw c => decodeU16 raw c) s

/-- `SET_VOLUME` = `CMD 0x13, <payload>` (R204, R214). -/
def execSetVolume (payload : List Byte) (s : State) : Result :=
  commandFrame 0x13 payload s

/-- `VOLUME_UP` = `CMD 0x14, []` (R205, R214). -/
def execVolumeUp (s : State) : Result :=
  commandFrame 0x14 [] s

/-- `VOLUME_DOWN` = `CMD 0x15, []` (R206, R214). -/
def execVolumeDown (s : State) : Result :=
  commandFrame 0x15 [] s

/-- `INTERLUDE_BY_PATH` = `PATHCMD 0x17, <dev>, <path>` (R207, R214). -/
def execInterludeByPath (dev : Byte) (path : List Byte) (s : State) : Result :=
  pathFrame 0x17 dev path s

/-- `SET_CYCLE_MODE` = `CMD 0x18, <payload>` (R208, R214). -/
def execSetCycleMode (payload : List Byte) (s : State) : Result :=
  commandFrame 0x18 payload s

/-- `SET_CYCLE_TIMES` = `CMD 0x19, <payload>` (R209, R214). -/
def execSetCycleTimes (payload : List Byte) (s : State) : Result :=
  commandFrame 0x19 payload s

/-- `SET_EQ` = `CMD 0x1A, <payload>` (R210, R214). -/
def execSetEq (payload : List Byte) (s : State) : Result :=
  commandFrame 0x1A payload s

/-- `COMBINATION_PLAY` = `COMB <entries>` (R211, R214): `OPC` is neither written nor read (R172). -/
def execCombinationPlay (entries : List (Byte × Byte)) (s : State) : Result :=
  andThen (loadInput (entryBytes entries) s) execBcomb

/-- `END_COMBINATION_PLAY` = `CMD 0x1C, []` (R212, R214). -/
def execEndCombinationPlay (s : State) : Result :=
  commandFrame 0x1C [] s

/-- `SELECT` = `CMD 0x1F, <payload>` (R213, R214). -/
def execSelect (payload : List Byte) (s : State) : Result :=
  commandFrame 0x1F payload s

end Sys2Proof.Machine
end

