-- ==== Sys2Proof/Machine/Dispatch.lean ====
section
/-! DEFINITION. The meaning of every instruction, one arm a row of spec/opcode_table.json. -/

namespace Sys2Proof.Machine

def exec (i : Instr) (s : State) : Host.Outcome State Fault Refusal :=
  match i with
  -- operation words
  | .nop => Sys2Proof.Machine.execNop s
  | .build => Sys2Proof.Machine.execBuild s
  | .encpath => Sys2Proof.Machine.execEncpath s
  | .bpath => Sys2Proof.Machine.execBpath s
  | .bcomb => Sys2Proof.Machine.execBcomb s
  | .decode => Sys2Proof.Machine.execDecode s
  | .decu16 => Sys2Proof.Machine.execDecu16 s
  | .decenumPlayState => Sys2Proof.Machine.execDecenumPlayState s
  | .decenumDevice => Sys2Proof.Machine.execDecenumDevice s
  | .decenumEqualizer => Sys2Proof.Machine.execDecenumEqualizer s
  | .decenumCycleMode => Sys2Proof.Machine.execDecenumCycleMode s
  | .decenumPreviousDirPolicy => Sys2Proof.Machine.execDecenumPreviousDirPolicy s
  -- driver-level commands
  | .queryPlayState => Sys2Proof.Machine.execQueryPlayState s
  | .play => Sys2Proof.Machine.execPlay s
  | .pause => Sys2Proof.Machine.execPause s
  | .stop => Sys2Proof.Machine.execStop s
  | .previous => Sys2Proof.Machine.execPrevious s
  | .next => Sys2Proof.Machine.execNext s
  | .playByNumber payload => Sys2Proof.Machine.execPlayByNumber payload s
  | .playByPath dev path => Sys2Proof.Machine.execPlayByPath dev path s
  | .getDevice => Sys2Proof.Machine.execGetDevice s
  | .setDevice payload => Sys2Proof.Machine.execSetDevice payload s
  | .getSoundCount => Sys2Proof.Machine.execGetSoundCount s
  | .getPlayingSound => Sys2Proof.Machine.execGetPlayingSound s
  | .previousDirE => Sys2Proof.Machine.execPreviousDirE s
  | .previousDirF => Sys2Proof.Machine.execPreviousDirF s
  | .stopInterlude => Sys2Proof.Machine.execStopInterlude s
  | .getFirstInDir => Sys2Proof.Machine.execGetFirstInDir s
  | .getSoundCountDir => Sys2Proof.Machine.execGetSoundCountDir s
  | .setVolume payload => Sys2Proof.Machine.execSetVolume payload s
  | .volumeUp => Sys2Proof.Machine.execVolumeUp s
  | .volumeDown => Sys2Proof.Machine.execVolumeDown s
  | .interludeByPath dev path => Sys2Proof.Machine.execInterludeByPath dev path s
  | .setCycleMode payload => Sys2Proof.Machine.execSetCycleMode payload s
  | .setCycleTimes payload => Sys2Proof.Machine.execSetCycleTimes payload s
  | .setEq payload => Sys2Proof.Machine.execSetEq payload s
  | .combinationPlay entries => Sys2Proof.Machine.execCombinationPlay entries s
  | .endCombinationPlay => Sys2Proof.Machine.execEndCombinationPlay s
  | .select payload => Sys2Proof.Machine.execSelect payload s
  -- reply formats
  | .reply5 b0 b1 b2 status ck => Sys2Proof.Machine.execReply5 b0 b1 b2 status ck s
  | .reply6 b0 b1 b2 hi lo ck => Sys2Proof.Machine.execReply6 b0 b1 b2 hi lo ck s

end Sys2Proof.Machine
end

