-- ==== Sys2Proof/Machine/Events.lean ====
section
/-! DEFINITION. What each event of the script does: the host's actions (spec/30_encoding.md R94), a driver-level
command (R214), bytes from the module (spec/10_state.md R40), reset (spec/70_reset_and_hazards.md R260). -/

namespace Sys2Proof.Machine

/-- A host write of `w` to `CTRL` (R22): the operation `w` encodes, or the answer to a reserved word (R82, R84). -/
def writeCtrl (w : Byte) (s : State) : Result :=
  match decode .ctrl [w] with
  | .ok (i, _) => exec i s
  | .error _ => reservedWord w s

/-- A driver-level command, by its words (R214). -/
def runCommand (bytes : List Byte) (s : State) : Result :=
  match decode .driver bytes with
  | .ok (i, _) => exec i s
  | .error _ => .refused .notACommand

/-- Bytes from the module: a reply when they are 5 or 6 (R90), and any other number just as well (R40: "may append any
bytes at any time"). -/
def runArrival (bytes : List Byte) (s : State) : Result :=
  match decode .line bytes with
  | .ok (i, _) => exec i s
  | .error _ => .next (arriveBytes bytes s)

/-- One event. -/
def runEvent (e : Event) (s : State) : Result :=
  match e with
  | .op w => writeCtrl w s
  | .wr w => writeRegister w s
  | .rd r => readRegister r s
  | .wb i b => writeInput i b s
  | .rb i => readByte .obuf i s
  | .drain => .next (drainQueue s)
  | .tx => transmit s
  | .rx n => receive n s
  | .command bs => runCommand bs s
  | .arrive bs => runArrival bs s
  | .reset => .next (resetCodec s)

/-- Events one after another, each complete before the next starts (R69); a stop ends the run. -/
def runEvents : List Event → State → Result
  | [], s => .next s
  | e :: es, s => andThen (runEvent e s) (runEvents es)

/-- The event that puts an instruction's words in their position. -/
def eventOfWords (p : Port) (bytes : List Byte) : Event :=
  match p with
  | .ctrl => .op (bytes.headD 0)
  | .driver => .command bytes
  | .line => .arrive bytes

/-- The next event of the script is taken and runs; with none left the codec does nothing (R235, R261). -/
def runNext (s : State) : Result :=
  match s.host.script with
  | [] => .next s
  | e :: rest => runEvent e { s with host := { s.host with script := rest } }

end Sys2Proof.Machine
end

