-- ==== Sys2Proof/Machine/Step.lean ====
section
/-! DEFINITION. One step of the machine, and how a word of the opcode table becomes its next instruction. There is no
program counter: "what stands in its place is the host's script" (spec/10_state.md R26). -/

namespace Sys2Proof.Machine

/-- One step: the next event of the host's script, whole (R69). -/
def step (s : State) : Host.Outcome State Fault Refusal :=
  runNext s

/-- The state with a word of the opcode table as the next event of the script. -/
def State.withFetchWord (s : State) (nbits w : Nat) : State :=
  { s with host := { s.host with
      script := eventOfWords (tableWords nbits w).1 (tableWords nbits w).2 :: s.host.script } }

end Sys2Proof.Machine
end

