-- ==== Sys2Proof/Machine/Script.lean ====
section
/-! DEFINITION. The pseudo-instructions of the host's script language as their expansions into primitive actions
(spec/30_encoding.md R95), the driver-level commands as theirs (spec/44_wire_commands.md R214), and R214's operand
forms. No step uses these: they are what `exec` of a driver-level command is held against. -/

namespace Sys2Proof.Machine

/-- `WB i, ...; WB i+1, ...` -/
def storeBytes : Nat → List Byte → List Event
  | _, [] => []
  | i, b :: bs => .wb i b :: storeBytes (i + 1) bs

/-- `LDI <bytes>` (R95). -/
def scriptLdi (bytes : List Byte) : List Event :=
  storeBytes 0 bytes ++ [.wr (.ilen (BitVec.ofNat 16 bytes.length))]

/-- `CMD <opc>, <bytes>` (R95). -/
def scriptCmd (opc : Byte) (bytes : List Byte) : List Event :=
  [.wr (.opc opc)] ++ scriptLdi bytes ++ [.op 0x01]

/-- `PATHCMD <opc>, <dev>, <path>` (R95). -/
def scriptPathCmd (opc dev : Byte) (path : List Byte) : List Event :=
  [.wr (.opc opc), .wr (.dev dev)] ++ scriptLdi path ++ [.op 0x03]

/-- `COMB <e1>, <e2>, ...` (R95). -/
def scriptComb (entries : List (Byte × Byte)) : List Event :=
  scriptLdi (entryBytes entries) ++ [.op 0x04]

/-- `SEND` (R95). -/
def scriptSend : List Event :=
  [.drain, .tx]

/-- The operation word of `DECENUM.<kind>`: `0x07 + 0x10 * KIND` (R94). -/
def decenumWord : EnumKind → Byte
  | .playState => 0x07
  | .device => 0x17
  | .equalizer => 0x27
  | .cycleMode => 0x37
  | .previousDirPolicy => 0x47

/-- `QUERY8 <opc>, <kind>` (R95). -/
def scriptQuery8 (opc : Byte) (kind : EnumKind) : List Event :=
  scriptCmd opc [] ++ scriptSend ++ [.wr (.elen 5), .rx 5, .op (decenumWord kind)]

/-- `QUERY16 <opc>` (R95). -/
def scriptQuery16 (opc : Byte) : List Event :=
  scriptCmd opc [] ++ scriptSend ++ [.wr (.elen 6), .rx 6, .op 0x06]

/-- The expansion of an instruction into primitive events: an operation word is its `OP`, a driver-level command its
row of R214, a reply the arrival of its bytes. -/
def expansion (i : Instr) : List Event :=
  match i with
  | .queryPlayState => scriptQuery8 0x01 .playState
  | .play => scriptCmd 0x02 []
  | .pause => scriptCmd 0x03 []
  | .stop => scriptCmd 0x04 []
  | .previous => scriptCmd 0x05 []
  | .next => scriptCmd 0x06 []
  | .playByNumber p => scriptCmd 0x07 p
  | .playByPath dev p => scriptPathCmd 0x08 dev p
  | .getDevice => scriptQuery8 0x0A .device
  | .setDevice p => scriptCmd 0x0B p
  | .getSoundCount => scriptQuery16 0x0C
  | .getPlayingSound => scriptQuery16 0x0D
  | .previousDirE => scriptCmd 0x0E []
  | .previousDirF => scriptCmd 0x0F []
  | .stopInterlude => scriptCmd 0x10 []
  | .getFirstInDir => scriptQuery16 0x11
  | .getSoundCountDir => scriptQuery16 0x12
  | .setVolume p => scriptCmd 0x13 p
  | .volumeUp => scriptCmd 0x14 []
  | .volumeDown => scriptCmd 0x15 []
  | .interludeByPath dev p => scriptPathCmd 0x17 dev p
  | .setCycleMode p => scriptCmd 0x18 p
  | .setCycleTimes p => scriptCmd 0x19 p
  | .setEq p => scriptCmd 0x1A p
  | .combinationPlay es => scriptComb es
  | .endCombinationPlay => scriptCmd 0x1C []
  | .select p => scriptCmd 0x1F p
  | .nop | .build | .encpath | .bpath | .bcomb | .decode | .decu16 => [eventOfWords .ctrl (encode i)]
  | .decenumPlayState | .decenumDevice | .decenumEqualizer => [eventOfWords .ctrl (encode i)]
  | .decenumCycleMode | .decenumPreviousDirPolicy => [eventOfWords .ctrl (encode i)]
  | .reply5 .. | .reply6 .. => [.arrive (encode i)]

/-! ### R214's operand forms -/

/-- `PLAY_BY_NUMBER <n>` (R214). -/
def driverPlayByNumber (n : Half) : Instr := .playByNumber (numberBytes n)

/-- `SET_DEVICE <dev>` (R214). -/
def driverSetDevice (dev : Byte) : Instr := .setDevice [dev]

/-- `SET_VOLUME <v>` (R214). -/
def driverSetVolume (v : Byte) : Instr := .setVolume [v]

/-- `SET_CYCLE_MODE <m>` (R214). -/
def driverSetCycleMode (m : Byte) : Instr := .setCycleMode [m]

/-- `SET_CYCLE_TIMES <n>` (R214). -/
def driverSetCycleTimes (n : Half) : Instr := .setCycleTimes (numberBytes n)

/-- `SET_EQ <e>` (R214). -/
def driverSetEq (e : Byte) : Instr := .setEq [e]

/-- `SELECT <n>` (R214). -/
def driverSelect (n : Half) : Instr := .select (numberBytes n)

end Sys2Proof.Machine
end

