-- ==== Sys2Proof/Safety.lean ====
section
/-! DEFINITION. The terms claims use: what the host has loaded, what an operation left and what it kept, and the
invariants of the machine. -/

namespace Sys2Proof.Machine

/-- The host's operand is `bytes`: `IBUF[0..ILEN)` holds them, and `ILEN` is a legal value (R28, R263). -/
def inputIs (s : State) (bytes : List Byte) : Prop :=
  s.codec.ilen.toNat ≤ s.params.inCap ∧ memReadBytes s.codec.ibuf 0 s.codec.ilen.toNat = some bytes

/-- The output is `bytes`: `OLEN` counts them, `OBUF` holds them, and every other byte of `OBUF` is without a value. -/
def outputIs (s : State) (bytes : List Byte) : Prop :=
  s.codec.olen.toNat = bytes.length ∧ ∀ k, memRead s.codec.obuf k = bytes[k]?

/-- The result registers other than `OLEN`. -/
def resultIs (s : State) (code : ResultCode) (efail : Bool) (val : Half) (acc : Byte) : Prop :=
  s.codec.status = statusByte code efail ∧ s.codec.val = val ∧ s.codec.acc = acc

/-- The frame of a codec operation: the operand registers and every byte of `IBUF` are kept (R35), and neither the link
nor the host changes (R70). -/
def operandsKept (s t : State) : Prop :=
  t.codec.opc = s.codec.opc ∧ t.codec.dev = s.codec.dev ∧ t.codec.elen = s.codec.elen ∧ t.codec.ilen = s.codec.ilen ∧
    (∀ a, memRead t.codec.ibuf a = memRead s.codec.ibuf a) ∧
    t.params = s.params ∧ t.link = s.link ∧ t.host = s.host

/-- The operation words: the twelve instructions started by a write to `CTRL`. -/
def isOperation (i : Instr) : Prop :=
  portOf i = .ctrl

/-- The operation word of an operation (R81). -/
def wordOf (i : Instr) : Byte :=
  (encode i).headD 0

/-- An operation runs to its end: `exec` answers a next state, in which `CTRL` has the operation word, the result state
is exactly the one given and everything else is as before, but that a decoding operation may end an exchange (R266). -/
def completes (i : Instr) (s : State) (code : ResultCode) (efail : Bool) (val : Half) (acc : Byte) (out : List Byte) :
    Prop :=
  ∃ t, exec i s = .next t ∧ t.codec.ctrl = wordOf i ∧ outputIs t out ∧ resultIs t code efail val acc ∧
    operandsKept s t ∧ t.exchange = exchangeAfterOp (wordOf i) s.exchange

/-- `DECENUM` of each enumeration. -/
def decenumOf : EnumKind → Instr
  | .playState => .decenumPlayState
  | .device => .decenumDevice
  | .equalizer => .decenumEqualizer
  | .cycleMode => .decenumCycleMode
  | .previousDirPolicy => .decenumPreviousDirPolicy

/-- The decoding operations. -/
def isDecoder (i : Instr) : Prop :=
  i = .decode ∨ i = .decu16 ∨ ∃ kind, i = decenumOf kind

/-- A host operand loaded by `LDI` (R95): `ILEN` counts the bytes, `IBUF` holds them from index 0 on, and every byte of
`IBUF` beyond them is as before. -/
def inputLoaded (s t : State) (bytes : List Byte) : Prop :=
  t.codec.ilen.toNat = bytes.length ∧
    ∀ a, memRead t.codec.ibuf a = if a < bytes.length then bytes[a]? else memRead s.codec.ibuf a

/-- The driver-level commands that `BUILD` frames: wire opcode and payload (R188 to R213). -/
def commandOf : Instr → Option (Byte × List Byte)
  | .play => some (0x02, [])
  | .pause => some (0x03, [])
  | .stop => some (0x04, [])
  | .previous => some (0x05, [])
  | .next => some (0x06, [])
  | .playByNumber p => some (0x07, p)
  | .setDevice p => some (0x0B, p)
  | .previousDirE => some (0x0E, [])
  | .previousDirF => some (0x0F, [])
  | .stopInterlude => some (0x10, [])
  | .setVolume p => some (0x13, p)
  | .volumeUp => some (0x14, [])
  | .volumeDown => some (0x15, [])
  | .setCycleMode p => some (0x18, p)
  | .setCycleTimes p => some (0x19, p)
  | .setEq p => some (0x1A, p)
  | .endCombinationPlay => some (0x1C, [])
  | .select p => some (0x1F, p)
  | _ => none

/-- The path commands: wire opcode, device code, path (R194, R207). -/
def pathCommandOf : Instr → Option (Byte × Byte × List Byte)
  | .playByPath dev p => some (0x08, dev, p)
  | .interludeByPath dev p => some (0x17, dev, p)
  | _ => none

/-- The queries: wire opcode, reply length, decoding operation (R186, R187, R195, R197, R198, R202, R203). -/
def queryOf : Instr → Option (Byte × Nat × Instr)
  | .queryPlayState => some (0x01, 5, .decenumPlayState)
  | .getDevice => some (0x0A, 5, .decenumDevice)
  | .getSoundCount => some (0x0C, 6, .decu16)
  | .getPlayingSound => some (0x0D, 6, .decu16)
  | .getFirstInDir => some (0x11, 6, .decu16)
  | .getSoundCountDir => some (0x12, 6, .decu16)
  | _ => none

/-- The invariant of the codec: the buffers keep their canonical form, `OBUF` holds exactly the bytes below `OLEN` that
exist (R31, R39), `OLEN` is at most 259 (R29) but for a decoding operation on a reply of 264 bytes or more (log entry 12),
`STATUS` has a produced code and zero reserved bits (R23, R230), an error leaves no output and no value (R233), `EFAIL`
belongs to `OPSEL` 7 (R139), and a reserved word in `CTRL` has been answered `BadOperand` (R84). -/
abbrev codecInv (p : Config) (c : Codec) : Prop :=
  Memory.wf p.inCap c.ibuf = true ∧
  c.obuf.map Prod.fst = List.range (min c.olen.toNat obufCap) ∧
  (obufCap < c.olen.toNat → c.ctrl ∈ decodingWords ∧ c.olen.toNat + 4 ≤ p.inCap) ∧
  c.status &&& 0xF0 = 0 ∧ errOf c.status ≠ 5 ∧ errOf c.status ≠ 6 ∧
  (errOf c.status ≠ 0 → c.olen = 0 ∧ c.val = 0 ∧ efailOf c.status = efailOnError c.ctrl) ∧
  (efailOf c.status = true → opselOf c.ctrl = 7) ∧
  ((decodeWord c.ctrl).toOption = none → errOf c.status = 7)

/-- The invariant of the machine: legal parameters, and the codec's. -/
abbrev machineInv (s : State) : Prop :=
  s.params.wf ∧ codecInv s.params s.codec

/-- What a builder left in `OBUF` is a sealed frame (R113): after `BUILD`, `BPATH` or `BCOMB` the bytes `OBUF[0..OLEN)`,
where there are any, begin with `0xAA` and end with the sum of all before it, which `ACC` holds. -/
abbrev frameInv (s : State) : Prop :=
  s.codec.ctrl ∈ [(0x01 : Byte), 0x03, 0x04] → s.codec.olen ≠ 0 →
    ∀ frame ∈ memReadBytes s.codec.obuf 0 s.codec.olen.toNat,
      frame.head? = some header ∧ frame.getLast? = some s.codec.acc ∧ s.codec.acc = sum8 frame.dropLast

end Sys2Proof.Machine
end

