-- ==== Sys2Proof/Certificates/Slice0/Obligations.lean ====
section
/-! DEFINITION. The statements for the provers, in the order of spec/: encodings, reset, operations, driver-level
commands, transport, whole machine. -/

open Sys2Proof Sys2Proof.Machine

/-! ### Encodings -/

/-- Decode after encode, for every instruction that has words, every operand at every value. The words of a driver-level
command are the model's own (log entry 10). -/
def Obligations.DecodeOfEncode : Prop :=
  ∀ i : Instr, i.wellFormed = true → decode (portOf i) (encode i) = .ok (i, [])

/-- Encode after decode: no bit of what is decoded is dropped, and nothing but an instruction's own words decodes to it.
The words of a driver-level command are the model's own (log entry 10). -/
def Obligations.DecodedBytesAreTheEncoding : Prop :=
  ∀ p bs i rest, decode p bs = .ok (i, rest) → portOf i = p ∧ i.wellFormed = true ∧ bs = encode i ++ rest

/-- R82 and R81: the twelve legal operation words and the operation of each; every other word is reserved. -/
def Obligations.TwelveLegalOperationWords : Prop :=
  (∀ w : Byte, (decodeWord w).toOption ≠ none ↔
    w ∈ [(0x00 : Byte), 0x01, 0x02, 0x03, 0x04, 0x05, 0x06, 0x07, 0x17, 0x27, 0x37, 0x47]) ∧
  decodeWord 0x00 = .ok .nop ∧ decodeWord 0x01 = .ok .build ∧ decodeWord 0x02 = .ok .encpath ∧
  decodeWord 0x03 = .ok .bpath ∧ decodeWord 0x04 = .ok .bcomb ∧ decodeWord 0x05 = .ok .decode ∧
  decodeWord 0x06 = .ok .decu16 ∧ decodeWord 0x07 = .ok .decenumPlayState ∧
  decodeWord 0x17 = .ok .decenumDevice ∧ decodeWord 0x27 = .ok .decenumEqualizer ∧
  decodeWord 0x37 = .ok .decenumCycleMode ∧ decodeWord 0x47 = .ok .decenumPreviousDirPolicy

/-- Words written out from the spec's tables decode to the rows they stand for: R81's word of `BPATH`, the frame of R188
less its checksum, the frame of R204's example less its checksum, the combination of R211's example, a reply of R197's
example, and the table's own 16-bit word of `SET_VOLUME` (log entries 10 and 11). -/
def Obligations.SampleWordsDecode : Prop :=
  decode .ctrl [0x03] = .ok (.bpath, []) ∧
  decode .driver [0xAA, 0x02, 0x00] = .ok (.play, []) ∧
  decode .driver [0xAA, 0x13, 0x01, 0x14] = .ok (.setVolume [0x14], []) ∧
  decode .driver [0xAA, 0x1B, 0x04, 0x30, 0x31, 0x30, 0x32] =
    .ok (.combinationPlay [(0x30, 0x31), (0x30, 0x32)], []) ∧
  decode .driver [0xAA, 0x08, 0x02, 0x01, 0x2F, 0x61] = .ok (.playByPath 0x01 [0x2F, 0x61], []) ∧
  decode .line [0xAA, 0x0C, 0x02, 0x01, 0x2C, 0xE5] = .ok (.reply6 0xAA 0x0C 0x02 0x01 0x2C 0xE5, []) ∧
  decodeTableWord 16 0xAA13 = some (.setVolume [])

/-- R93: a command with a wire opcode outside the list is no driver-level command, and a script that holds one as such
has no meaning (`BUILD` frames every opcode); the refusal is the model's (log entry 10). -/
def Obligations.UnlistedOpcodeIsNoCommand : Prop :=
  ∀ (opc n : Byte) (rest : List Byte) (s : State),
    (opc = 0x00 ∨ opc = 0x09 ∨ opc = 0x16 ∨ opc = 0x1D ∨ opc = 0x1E ∨ 0x20 ≤ opc) →
      decode .driver (0xAA :: opc :: n :: rest) = .error .unlistedOpcode ∧
      runEvent (.command (0xAA :: opc :: n :: rest)) s = .refused .notACommand

/-! ### Bytes -/

/-- R13: the additive sum, and its two laws. -/
def Obligations.ChecksumIsAdditive : Prop :=
  (∀ s : List Byte, (sum8 s).toNat = (s.map BitVec.toNat).sum % 256) ∧
  (∀ s t : List Byte, sum8 (s ++ t) = sum8 s + sum8 t) ∧
  (∀ s t : List Byte, s.Perm t → sum8 s = sum8 t)

/-- R153 with R14: what becomes of every path byte after the first. -/
def Obligations.PathByteTransformation : Prop :=
  ∀ g c : Byte,
    (c = 0x2E ∨ c = 0x2F → transform g c = g) ∧
    (c ≠ 0x2E → c ≠ 0x2F → (0x61 : Byte) ≤ c → c ≤ 0x7A → transform g c = c - 0x20) ∧
    (c ≠ 0x2E → c ≠ 0x2F → (c < 0x61 ∨ 0x7A < c) → transform g c = c)

/-! ### Reset and idling -/

/-- R43, R260: reset leaves all nine registers zero and every buffer byte without a value; the reset input does the same
from every state, runs no operation and does not reach the transport (R262). That it keeps the link's own fields (log
entry 4) and the host's script and readback (log entry 5), and that an open exchange waits for a `DRAIN` after it (log
entry 14), is the model's. -/
def Obligations.ResetLeavesTheCodecCleared : Prop :=
  (∀ r : Reg, readReg r State.reset.codec = 0) ∧
  (∀ a, memRead State.reset.codec.ibuf a = none ∧ memRead State.reset.codec.obuf a = none) ∧
  ∀ s : State, ∃ t, runEvent .reset s = .next t ∧ t.codec = State.reset.codec ∧ t.link = s.link ∧ t.host = s.host ∧
    t.params = s.params ∧ t.exchange = (if s.exchange = .closed then .closed else .replyDue)

/-- R235, R261: with nothing left of the host's script a step changes nothing (the idle step is the model's, log entry
1). -/
def Obligations.NothingHappensByItself : Prop :=
  ∀ s : State, s.host.script = [] → step s = .next s

/-! ### Every operation -/

/-- R84: a reserved word is stored in `CTRL` and answered `BadOperand`, with `EFAIL` when its `OPSEL` is 7; nothing else
changes. -/
def Obligations.ReservedWordIsBadOperand : Prop :=
  ∀ (w : Byte) (s : State), (decodeWord w).toOption = none →
    ∃ t, runEvent (.op w) s = .next t ∧ t.codec.ctrl = w ∧ outputIs t [] ∧
      resultIs t .badOperand (opselOf w == 7) 0 0 ∧ operandsKept s t ∧ t.exchange = s.exchange

/-- R231: `ILEN > IN_CAP` ends every operation but `NOP` with `BadOperand`, whatever `IBUF` holds. That a decoding
operation so ended also ends an exchange whose reply an `RX` has read of (R266) is log entry 14. -/
def Obligations.OverlongInputIsBadOperand : Prop :=
  ∀ (i : Instr) (s : State), isOperation i → i ≠ .nop → s.params.inCap < s.codec.ilen.toNat →
    completes i s .badOperand (opselOf (wordOf i) == 7) 0 0 []

/-- R39: an operation whose `ILEN` covers an `IBUF` byte that nothing has written is a fault of the host's script; that
it comes before the operation's own tests is the model's reading (log entry 6). -/
def Obligations.UnwrittenInputIsAFault : Prop :=
  ∀ (i : Instr) (s : State), isOperation i → i ≠ .nop → s.codec.ilen.toNat ≤ s.params.inCap →
    (∃ a, a < s.codec.ilen.toNat ∧ memRead s.codec.ibuf a = none) → exec i s = .fault .unwrittenInput

/-- R35, R70: what no operation changes, legal word or reserved: the operand registers, `IBUF`, the parameters, the
link, the host; and the exchange (R266; log entry 14), but for a decoding operation, which ends it once an `RX` has
read of the reply. -/
def Obligations.OperationsKeepOperands : Prop :=
  ∀ (w : Byte) (s t : State), runEvent (.op w) s = .next t → t.codec.ctrl = w ∧ operandsKept s t ∧
    (w ∉ [(0x05 : Byte), 0x06, 0x07, 0x17, 0x27, 0x37, 0x47] → t.exchange = s.exchange) ∧
    (w ∈ [(0x05 : Byte), 0x06, 0x07, 0x17, 0x27, 0x37, 0x47] →
      t.exchange = if s.exchange = .replyDue then .replyDue else .closed)

/-- R233: whatever the error, no output, no value, `EFAIL` exactly when `OPSEL` is 7, and the next operation may
follow. -/
def Obligations.ErrorExitLeavesNoOutput : Prop :=
  ∀ (w : Byte) (s t : State), runEvent (.op w) s = .next t → errOf t.codec.status ≠ 0 →
    outputIs t [] ∧ t.codec.val = 0 ∧ efailOf t.codec.status = (opselOf w == 7) ∧ t.codec.ctrl = w ∧ operandsKept s t

/-- R139: an operation word with `OPSEL` 7 that fails leaves `EFAIL` 1 and `VAL` 0. -/
def Obligations.FailedEnumDecodeSetsEfail : Prop :=
  ∀ (w : Byte) (s t : State), opselOf w = 7 → runEvent (.op w) s = .next t → errOf t.codec.status ≠ 0 →
    efailOf t.codec.status = true ∧ t.codec.val = 0

/-- R10: the results of an operation depend on the operand registers, `IBUF[0..ILEN)` and the parameters only. -/
def Obligations.ResultsDependOnOperandsOnly : Prop :=
  ∀ (i : Instr) (s s' : State), isOperation i → s.params = s'.params → s.codec.opc = s'.codec.opc →
    s.codec.dev = s'.codec.dev → s.codec.elen = s'.codec.elen → s.codec.ilen = s'.codec.ilen →
    (∀ a, a < s.codec.ilen.toNat → memRead s.codec.ibuf a = memRead s'.codec.ibuf a) →
    (∃ f, exec i s = .fault f ∧ exec i s' = .fault f) ∨
    ∃ t t', exec i s = .next t ∧ exec i s' = .next t' ∧ t.codec.ctrl = t'.codec.ctrl ∧
      t.codec.status = t'.codec.status ∧ t.codec.olen = t'.codec.olen ∧ t.codec.val = t'.codec.val ∧
      t.codec.acc = t'.codec.acc ∧ t.codec.obuf = t'.codec.obuf

/-! ### Frame Builder -/

/-- R110: `NOP`. -/
def Obligations.NopClearsTheResults : Prop :=
  ∀ s : State, completes .nop s .ok false 0 0 []

/-- R112: `BUILD`, its frame, its two errors in their order. -/
def Obligations.BuildMakesTheFrame : Prop :=
  ∀ s : State,
    (s.params.inCap < s.codec.ilen.toNat → completes .build s .badOperand false 0 0 []) ∧
    ∀ p, inputIs s p →
      (255 < p.length → completes .build s .invalidPayloadLength false 0 0 []) ∧
      (p.length ≤ 255 →
        completes .build s .ok false 0 (sum8 ([0xAA, s.codec.opc, BitVec.ofNat 8 p.length] ++ p))
          ([0xAA, s.codec.opc, BitVec.ofNat 8 p.length] ++ p ++
            [sum8 ([0xAA, s.codec.opc, BitVec.ofNat 8 p.length] ++ p)]))

/-- R119: with an empty payload the checksum of opcode `o` is `(0xAA + o) mod 256`; `0xAC` for `0x02`. -/
def Obligations.EmptyPayloadChecksum : Prop :=
  ∀ s : State, s.codec.ilen = 0 →
    completes .build s .ok false 0 (0xAA + s.codec.opc) [0xAA, s.codec.opc, 0x00, 0xAA + s.codec.opc] ∧
    (s.codec.opc = 0x02 → (0xAA : Byte) + s.codec.opc = 0xAC)

/-- R120: `BUILD` never makes the same frame of different opcodes or payloads. -/
def Obligations.BuildFramesAreDistinct : Prop :=
  ∀ (s s' t t' : State) (p p' frame : List Byte),
    inputIs s p → inputIs s' p' → p.length ≤ 255 → p'.length ≤ 255 →
    exec .build s = .next t → exec .build s' = .next t' → outputIs t frame → outputIs t' frame →
      s.codec.opc = s'.codec.opc ∧ p = p'

/-! ### Path Encoder -/

/-- R152: `ENCPATH`, its output and its three errors in their order. -/
def Obligations.EncpathEncodesThePath : Prop :=
  ∀ s : State,
    (s.params.inCap < s.codec.ilen.toNat → completes .encpath s .badOperand false 0 0 []) ∧
    (inputIs s [] → completes .encpath s .emptyPath false 0 0 []) ∧
    ∀ first others, inputIs s (first :: others) →
      let n := (first :: others).length
      let newLen := n + (first :: others).count 0x2F - (if first = 0x2F then 1 else 0)
      (255 < newLen + 1 → completes .encpath s .invalidPayloadLength false 0 0 []) ∧
      (newLen + 1 ≤ 255 →
        completes .encpath s .ok false 0 0
          ([BitVec.ofNat 8 (newLen + 1), s.codec.dev, first] ++ others.map (transform s.params.glyph)))

/-- R160: `BPATH`, its frame and its three errors in their order. -/
def Obligations.BpathFramesThePath : Prop :=
  ∀ s : State,
    (s.params.inCap < s.codec.ilen.toNat → completes .bpath s .badOperand false 0 0 []) ∧
    (inputIs s [] → completes .bpath s .emptyPath false 0 0 []) ∧
    ∀ first others, inputIs s (first :: others) →
      let n := (first :: others).length
      let newLen := n + (first :: others).count 0x2F - (if first = 0x2F then 1 else 0)
      let body := [0xAA, s.codec.opc, BitVec.ofNat 8 (newLen + 1), s.codec.dev, first] ++
        others.map (transform s.params.glyph)
      (255 < newLen + 1 → completes .bpath s .invalidPayloadLength false 0 0 []) ∧
      (newLen + 1 ≤ 255 → completes .bpath s .ok false 0 (sum8 body) (body ++ [sum8 body]))

/-- R155: an empty path is `EmptyPath` for both, whatever `DEV`, `OPC` and `IBUF` hold, and leaves nothing to send. -/
def Obligations.EmptyPathProducesNothing : Prop :=
  ∀ (i : Instr) (s : State), i = .encpath ∨ i = .bpath → s.codec.ilen = 0 →
    completes i s .emptyPath false 0 0 [] ∧ andThen (exec i s) transmit = .refused .nothingToSend

/-- R158: the length byte of an encoded path is the number of bytes after it plus one for every inner slash; R157: the
first path byte is raw. -/
def Obligations.PathLengthByteCountsInnerSlashesTwice : Prop :=
  ∀ (s t : State) (first : Byte) (others out : List Byte), inputIs s (first :: others) →
    exec .encpath s = .next t → errOf t.codec.status = 0 → outputIs t out →
      out.length = others.length + 3 ∧
      (out.head?.map BitVec.toNat) = some ((out.length - 1) + others.count 0x2F) ∧
      out[1]? = some s.codec.dev ∧ out[2]? = some first

/-! ### Combination -/

/-- R172: `BCOMB`, its stream, no output without entries, and its errors in their order. -/
def Obligations.BcombMakesTheStream : Prop :=
  ∀ s : State,
    (s.params.inCap < s.codec.ilen.toNat → completes .bcomb s .badOperand false 0 0 []) ∧
    ∀ e, inputIs s e →
      (e = [] → completes .bcomb s .ok false 0 0 []) ∧
      (e.length % 2 = 1 → completes .bcomb s .badOperand false 0 0 []) ∧
      (e.length % 2 = 0 → 255 < e.length → completes .bcomb s .invalidPayloadLength false 0 0 []) ∧
      (e ≠ [] → e.length % 2 = 0 → e.length ≤ 255 →
        completes .bcomb s .ok false 0 (sum8 ([0xAA, 0x1B, BitVec.ofNat 8 e.length] ++ e))
          ([0xAA, 0x1B, BitVec.ofNat 8 e.length] ++ e ++ [sum8 ([0xAA, 0x1B, BitVec.ofNat 8 e.length] ++ e)]))

/-- R177: for every even `ILEN` from 2 to 254 `BCOMB` leaves what `BUILD` leaves with `OPC = 0x1B`; it does not read
`OPC`. -/
def Obligations.BcombIsBuildOfTheCombinationOpcode : Prop :=
  ∀ (s : State) (e : List Byte), inputIs s e → e.length % 2 = 0 → 2 ≤ e.length → e.length ≤ 254 →
    ∃ t u, exec .bcomb s = .next t ∧ exec .build { s with codec := { s.codec with opc := 0x1B } } = .next u ∧
      t.codec.obuf = u.codec.obuf ∧ t.codec.olen = u.codec.olen ∧ t.codec.acc = u.codec.acc ∧
      t.codec.status = u.codec.status ∧ t.codec.val = u.codec.val

/-! ### Reply Decoder

A reply of 263 bytes or fewer exposes a payload that `OBUF` can hold; longer ones have a statement of their own (log
entry 12). -/

/-- R132: `DECODE`, its tests in their order, what `ACC` holds after each, the payload `raw[3..n-1)`. That it ends an
exchange whose reply an `RX` has read of, whatever its result code (R266), is log entry 14. -/
def Obligations.DecodeChecksTheReply : Prop :=
  ∀ s : State,
    (s.params.inCap < s.codec.ilen.toNat → completes .decode s .badOperand false 0 0 []) ∧
    ∀ raw, inputIs s raw →
      let n := raw.length
      let sum := sum8 (raw.take (n - 1))
      (s.codec.elen = 0 → completes .decode s .badOperand false 0 0 []) ∧
      (n < s.codec.elen.toNat → completes .decode s .shortRead false 0 0 []) ∧
      (s.codec.elen ≠ 0 → s.codec.elen.toNat ≤ n → raw[n - 1]? ≠ some sum →
        completes .decode s .checksumMismatch false 0 sum []) ∧
      (s.codec.elen ≠ 0 → s.codec.elen.toNat ≤ n → raw[n - 1]? = some sum → n ≤ 263 →
        completes .decode s .ok false 0 sum ((raw.take (n - 1)).drop 3))

/-- R133: the acceptance law, for replies of every length. -/
def Obligations.DecodeAcceptsExactlyMatchingSums : Prop :=
  ∀ (s : State) (b : List Byte), inputIs s b → 1 ≤ s.codec.elen.toNat → s.codec.elen.toNat ≤ b.length →
    ∃ t, exec .decode s = .next t ∧
      (errOf t.codec.status = 0 ↔ some (sum8 b.dropLast) = b.getLast?)

/-- R144: a reply shorter than `ELEN` gives no byte, no value and no sum. That the operation ends an exchange whose reply
an `RX` has read of (R266) is log entry 14. -/
def Obligations.ShortReplyIsNeverPartlyDecoded : Prop :=
  ∀ (i : Instr) (s : State) (raw : List Byte), isDecoder i → inputIs s raw → raw.length < s.codec.elen.toNat →
    completes i s .shortRead (opselOf (wordOf i) == 7) 0 0 []

/-- R136: `DECU16`. That it ends an exchange whose reply an `RX` has read of, whatever its result code (R266), is log
entry 14. -/
def Obligations.Decu16ExtractsTheValue : Prop :=
  ∀ s : State,
    (s.params.inCap < s.codec.ilen.toNat → completes .decu16 s .badOperand false 0 0 []) ∧
    ∀ raw, inputIs s raw →
      let n := raw.length
      let sum := sum8 (raw.take (n - 1))
      (s.codec.elen = 0 → completes .decu16 s .badOperand false 0 0 []) ∧
      (n < s.codec.elen.toNat → completes .decu16 s .shortRead false 0 0 []) ∧
      (s.codec.elen ≠ 0 → s.codec.elen.toNat ≤ n → raw[n - 1]? ≠ some sum →
        completes .decu16 s .checksumMismatch false 0 sum []) ∧
      (s.codec.elen ≠ 0 → s.codec.elen.toNat ≤ n → raw[n - 1]? = some sum → n < 6 →
        completes .decu16 s .shortRead false 0 sum []) ∧
      (s.codec.elen ≠ 0 → s.codec.elen.toNat ≤ n → raw[n - 1]? = some sum → n ≤ 263 →
        ∀ hi lo, raw[3]? = some hi → raw[4]? = some lo → 6 ≤ n →
          completes .decu16 s .ok false (BitVec.ofNat 16 (hi.toNat * 256 + lo.toNat)) sum
            ((raw.take (n - 1)).drop 3))

/-- R138, R139: `DECENUM` of each of the five enumerations. That it ends an exchange whose reply an `RX` has read of,
whatever its result code (R266), is log entry 14. -/
def Obligations.DecenumMapsTheStatusByte : Prop :=
  ∀ (kind : EnumKind) (s : State),
    (s.params.inCap < s.codec.ilen.toNat → completes (decenumOf kind) s .badOperand true 0 0 []) ∧
    ∀ raw, inputIs s raw →
      let n := raw.length
      let sum := sum8 (raw.take (n - 1))
      (s.codec.elen = 0 → completes (decenumOf kind) s .badOperand true 0 0 []) ∧
      (n < s.codec.elen.toNat → completes (decenumOf kind) s .shortRead true 0 0 []) ∧
      (s.codec.elen ≠ 0 → s.codec.elen.toNat ≤ n → raw[n - 1]? ≠ some sum →
        completes (decenumOf kind) s .checksumMismatch true 0 sum []) ∧
      (s.codec.elen ≠ 0 → s.codec.elen.toNat ≤ n → raw[n - 1]? = some sum → n < 5 →
        completes (decenumOf kind) s .shortRead true 0 sum []) ∧
      (s.codec.elen ≠ 0 → s.codec.elen.toNat ≤ n → raw[n - 1]? = some sum → n ≤ 263 →
        ∀ code, raw[3]? = some code → 5 ≤ n →
          completes (decenumOf kind) s .ok (decide (code ∉ s.params.enumTab.members kind))
            (BitVec.ofNat 16 code.toNat) sum ((raw.take (n - 1)).drop 3))

/-- A reply of more than 263 bytes that passes the tests is decoded like any other (R132, R133, R136, R138): `OLEN` counts
the whole payload (R135, R137), the value is extracted, and `OBUF` holds the 259 payload bytes that it has room for (R66). How
the bound of R29 and R31 gives way is log entry 12; that the operation ends the exchange (R266) is log entry 14. -/
def Obligations.LongReplyIsDecoded : Prop :=
  ∀ (i : Instr) (s : State) (raw : List Byte), isDecoder i → inputIs s raw → 263 < raw.length →
    s.codec.elen ≠ 0 → s.codec.elen.toNat ≤ raw.length →
    raw[raw.length - 1]? = some (sum8 (raw.take (raw.length - 1))) →
      ∃ t, exec i s = .next t ∧ errOf t.codec.status = 0 ∧ t.codec.ctrl = wordOf i ∧
        t.codec.olen.toNat = raw.length - 4 ∧
        (∀ k, memRead t.codec.obuf k = if k < 259 then raw[k + 3]? else none) ∧
        t.codec.acc = sum8 (raw.take (raw.length - 1)) ∧
        (i = .decode → t.codec.val = 0 ∧ efailOf t.codec.status = false) ∧
        (i = .decu16 → ∀ hi lo, raw[3]? = some hi → raw[4]? = some lo →
          t.codec.val = BitVec.ofNat 16 (hi.toNat * 256 + lo.toNat) ∧ efailOf t.codec.status = false) ∧
        (∀ kind, i = decenumOf kind → ∀ code, raw[3]? = some code →
          t.codec.val = BitVec.ofNat 16 code.toNat ∧
          efailOf t.codec.status = decide (code ∉ s.params.enumTab.members kind)) ∧
        operandsKept s t ∧ t.exchange = if s.exchange = .replyDue then .replyDue else .closed

/-- R143: any frame a builder made, put back into an input buffer and decoded with any `ELEN` up to its length, is
accepted and exposes what stands between its length byte and its checksum; for `BUILD` that is the payload. That `DECODE`
ends an exchange whose reply an `RX` has read of (R266) is log entry 14. -/
def Obligations.BuiltFramesDecodeToTheirPayload : Prop :=
  ∀ (i : Instr) (s t u : State) (input frame : List Byte), i = .build ∨ i = .bpath ∨ i = .bcomb →
    inputIs s input → exec i s = .next t → errOf t.codec.status = 0 → outputIs t frame → frame ≠ [] →
    inputIs u frame → 1 ≤ u.codec.elen.toNat → u.codec.elen.toNat ≤ frame.length →
      completes .decode u .ok false 0 t.codec.acc ((frame.drop 3).dropLast) ∧
      (i = .build → (frame.drop 3).dropLast = input)

/-- After an accepted reply, flipping any one bit of any one byte gives `ChecksumMismatch` (derived from R133). That this
`DECODE` too ends an exchange whose reply an `RX` has read of (R266) is log entry 14. -/
def Obligations.SingleBitErrorIsDetected : Prop :=
  ∀ (s s' t : State) (raw : List Byte) (k j : Nat) (b : Byte), inputIs s raw → exec .decode s = .next t →
    errOf t.codec.status = 0 → raw[k]? = some b → j < 8 → s'.codec.elen = s.codec.elen →
    inputIs s' (raw.set k (b ^^^ (1#8 <<< j))) →
      completes .decode s' .checksumMismatch false 0 (sum8 (raw.set k (b ^^^ (1#8 <<< j))).dropLast) []

/-! ### Driver-level commands -/

/-- R188 to R213 for the commands `BUILD` frames: the opcode and the payload are loaded, the frame stands in `OBUF`,
unsent; it is the command's own words and their sum (R97). That a command carries any payload is the model's choice
(log entry 9), that it is one step likewise (log entry 15). -/
def Obligations.CommandsBuildTheirFrames : Prop :=
  ∀ (i : Instr) (s : State) (opc : Byte) (payload : List Byte), commandOf i = some (opc, payload) →
    payload.length ≤ 255 → s.params.wf →
      ∃ t, exec i s = .next t ∧ t.codec.ctrl = 0x01 ∧ t.codec.opc = opc ∧ inputLoaded s t payload ∧
        outputIs t ([0xAA, opc, BitVec.ofNat 8 payload.length] ++ payload ++
          [sum8 ([0xAA, opc, BitVec.ofNat 8 payload.length] ++ payload)]) ∧
        outputIs t (encode i ++ [sum8 (encode i)]) ∧
        resultIs t .ok false 0 (sum8 ([0xAA, opc, BitVec.ofNat 8 payload.length] ++ payload)) ∧
        t.codec.dev = s.codec.dev ∧ t.codec.elen = s.codec.elen ∧
        t.params = s.params ∧ t.link = s.link ∧ t.host = s.host ∧ t.exchange = s.exchange

/-- A payload that no length byte can count: `InvalidPayloadLength` while it fits `IBUF` (R117), and no such load where
it does not (R66). Only the seven commands for which R214 writes an operand can carry one: that they carry any payload
(log entry 9), and do so in one step (log entry 15), is the model's choice. -/
def Obligations.OverlongCommandPayload : Prop :=
  ∀ (i : Instr) (s : State) (opc : Byte) (payload : List Byte), commandOf i = some (opc, payload) →
    255 < payload.length → s.params.wf →
      (payload.length ≤ s.params.inCap →
        ∃ t, exec i s = .next t ∧ t.codec.ctrl = 0x01 ∧ t.codec.opc = opc ∧ inputLoaded s t payload ∧ outputIs t [] ∧
          resultIs t .invalidPayloadLength false 0 0 ∧ t.codec.dev = s.codec.dev ∧ t.codec.elen = s.codec.elen ∧
          t.params = s.params ∧ t.link = s.link ∧ t.host = s.host ∧ t.exchange = s.exchange) ∧
      (s.params.inCap < payload.length → exec i s = .fault .noInputIndex)

/-- R194, R207: the path commands; an empty path is `EmptyPath`, one too long for the length byte
`InvalidPayloadLength`, and one that does not fit `IBUF` is no such load (R66). One step each (log entry 15). -/
def Obligations.PathCommandsFrameThePath : Prop :=
  ∀ (i : Instr) (s : State) (opc dev : Byte) (path : List Byte), pathCommandOf i = some (opc, dev, path) →
    s.params.wf →
      (path.length ≤ s.params.inCap →
        ∃ t, exec i s = .next t ∧ t.codec.ctrl = 0x03 ∧ t.codec.opc = opc ∧ t.codec.dev = dev ∧
          inputLoaded s t path ∧ t.codec.elen = s.codec.elen ∧
          t.params = s.params ∧ t.link = s.link ∧ t.host = s.host ∧ t.exchange = s.exchange ∧
          (path = [] → outputIs t [] ∧ resultIs t .emptyPath false 0 0) ∧
          ∀ first others, path = first :: others →
            let newLen := path.length + path.count 0x2F - (if first = 0x2F then 1 else 0)
            let body := [0xAA, opc, BitVec.ofNat 8 (newLen + 1), dev, first] ++
              others.map (transform s.params.glyph)
            (255 < newLen + 1 → outputIs t [] ∧ resultIs t .invalidPayloadLength false 0 0) ∧
            (newLen + 1 ≤ 255 → outputIs t (body ++ [sum8 body]) ∧ resultIs t .ok false 0 (sum8 body))) ∧
      (s.params.inCap < path.length → exec i s = .fault .noInputIndex)

/-- R211: `COMBINATION_PLAY`; with no entries nothing is left to send, with more than 127 the length byte cannot hold
their bytes (R175), and what does not fit `IBUF` is no such load (R66). `OPC` and `DEV` are neither written nor
read. One step (log entry 15). -/
def Obligations.CombinationPlayMakesTheStream : Prop :=
  ∀ (s : State) (es : List (Byte × Byte)), s.params.wf →
    (2 * es.length ≤ s.params.inCap →
      ∃ t, exec (.combinationPlay es) s = .next t ∧ t.codec.ctrl = 0x04 ∧ inputLoaded s t (entryBytes es) ∧
        t.codec.opc = s.codec.opc ∧ t.codec.dev = s.codec.dev ∧ t.codec.elen = s.codec.elen ∧
        t.params = s.params ∧ t.link = s.link ∧ t.host = s.host ∧ t.exchange = s.exchange ∧
        (es = [] → outputIs t [] ∧ resultIs t .ok false 0 0) ∧
        (127 < es.length → outputIs t [] ∧ resultIs t .invalidPayloadLength false 0 0) ∧
        (es ≠ [] → es.length ≤ 127 →
          outputIs t (encode (.combinationPlay es) ++ [sum8 (encode (.combinationPlay es))]) ∧
          resultIs t .ok false 0 (sum8 (encode (.combinationPlay es))))) ∧
    (s.params.inCap < 2 * es.length → exec (.combinationPlay es) s = .fault .noInputIndex)

/-- R95, R187, R195, R197, R198, R202, R203: a query sends its frame on a drained queue, reads its reply, and ends as
its decoding operation ends on the bytes the transport delivered, whatever they are and however many. The reply classes
of `0x0D` and `0x11` (log entry 8), the transport's answer (log entry 7), the single step (log entry 15) and how far an
exchange has come (log entry 14) are the model's. While an earlier reply is read and not yet decoded the query's `TX` is
no move of the host (R266, R274). -/
def Obligations.QueriesSendReadAndDecode : Prop :=
  ∀ (i d : Instr) (s : State) (opc : Byte) (n : Nat), queryOf i = some (opc, n, d) → s.params.wf →
    (s.exchange = .replyRead → exec i s = .refused .exchangeOpen) ∧
    (s.exchange ≠ .replyRead → ∃ v t bytes, exec i s = .next t ∧ exec d v = .next t ∧
      bytes.length ≤ n ∧ inputIs v bytes ∧ inputLoaded s v bytes ∧
      bytes = delivered n { s.link with rxq := [] } ∧
      v.codec.opc = opc ∧ v.codec.dev = s.codec.dev ∧ v.codec.elen = BitVec.ofNat 16 n ∧
      v.link.wire = s.link.wire ++ [0xAA, opc, 0x00, 0xAA + opc] ∧
      v.exchange = (if bytes.length = n then .replyRead else .replyShort) ∧ t.exchange = .closed ∧
      bytes ++ v.link.rxq = (nextAnswer s.link).arrived ∧ v.link.answers = s.link.answers.tail ∧
      v.link.rxCount = (if s.link.answers = [] then s.link.rxCount + 1 else s.link.rxCount) ∧
      v.params = s.params ∧ v.host = s.host ∧ v.link = t.link)

/-- R90, R40: a reply's bytes reach the end of `RXQ`; nothing else changes and none of them is looked at. That this is
the effect of a reply is the model's choice (log entry 13). -/
def Obligations.RepliesArriveInTheQueue : Prop :=
  ∀ (b0 b1 b2 b3 b4 b5 : Byte) (s : State),
    (∃ t, exec (.reply5 b0 b1 b2 b3 b4) s = .next t ∧ t.link.rxq = s.link.rxq ++ [b0, b1, b2, b3, b4] ∧
      t.codec = s.codec ∧ t.params = s.params ∧ t.host = s.host ∧ t.link.wire = s.link.wire ∧
      t.link.answers = s.link.answers ∧ t.link.rxCount = s.link.rxCount ∧ t.exchange = s.exchange) ∧
    (∃ t, exec (.reply6 b0 b1 b2 b3 b4 b5) s = .next t ∧ t.link.rxq = s.link.rxq ++ [b0, b1, b2, b3, b4, b5] ∧
      t.codec = s.codec ∧ t.params = s.params ∧ t.host = s.host ∧ t.link.wire = s.link.wire ∧
      t.link.answers = s.link.answers ∧ t.link.rxCount = s.link.rxCount ∧ t.exchange = s.exchange)

/-- R95, R214: every instruction, run as one step, is its expansion into primitive host actions run one by one, in every
state and for all operands. The single step is the model's choice (log entry 15), the reply's arrival too (log entry
13). -/
def Obligations.ExecIsTheExpansion : Prop :=
  ∀ (i : Instr) (s : State), runEvents (expansion i) s = exec i s

/-! ### The host and the transport -/

/-- R248, with R267 and R274: `TX` sends `OBUF[0..OLEN)` when the last operation left `ERR = OK` and `OLEN > 0` and no
exchange is open; otherwise it is no move of the host, and an output that `OBUF` does not hold whole cannot be sent (R39;
log entry 12). No codec state changes. How the model tells that an exchange is
open is its own (log entries 8 and 14). -/
def Obligations.TxSendsTheOutput : Prop :=
  ∀ (s : State) (frame : List Byte),
    (errOf s.codec.status ≠ 0 ∨ s.codec.olen = 0 → runEvent .tx s = .refused .nothingToSend) ∧
    (errOf s.codec.status = 0 → outputIs s frame → frame ≠ [] → s.exchange ≠ .closed →
      runEvent .tx s = .refused .exchangeOpen) ∧
    (errOf s.codec.status = 0 → s.exchange = .closed → (∃ k, k < s.codec.olen.toNat ∧ memRead s.codec.obuf k = none) →
      runEvent .tx s = .fault .unspecifiedOutput) ∧
    (errOf s.codec.status = 0 → outputIs s frame → frame ≠ [] → s.exchange = .closed →
      ∃ t, runEvent .tx s = .next t ∧ t.link.wire = s.link.wire ++ frame ∧ t.codec = s.codec ∧
        t.params = s.params ∧ t.host = s.host ∧ t.link.rxq = s.link.rxq ∧ t.link.answers = s.link.answers ∧
        t.link.rxCount = s.link.rxCount ∧ t.exchange = if expectsReply frame then .replyDue else .closed)

/-- R268: after `EmptyPath`, `BCOMB` with no entries, `NOP`, and every result code other than `OK`, `OLEN` is 0, `OBUF`
holds no defined byte and `TX` is no move of the host. -/
def Obligations.NothingToSendAfterNoOutput : Prop :=
  ∀ (w : Byte) (s t : State), runEvent (.op w) s = .next t →
    (errOf t.codec.status ≠ 0 ∨ w = 0x00 ∨ (w = 0x04 ∧ s.codec.ilen = 0)) →
      outputIs t [] ∧ runEvent .tx t = .refused .nothingToSend

/-- R247: `DRAIN` empties `RXQ` and changes no codec state; it ends the exchange of a host that has given up on a reply
(R267), and not one whose reply has been read and is still to be decoded (R266; log entry 14). -/
def Obligations.DrainEmptiesTheQueue : Prop :=
  ∀ s : State, ∃ t, runEvent .drain s = .next t ∧ bytesAvailable t = 0 ∧
    t.exchange = (if s.exchange = .replyRead then .replyRead else .closed) ∧
    t.codec = s.codec ∧ t.params = s.params ∧ t.host = s.host ∧ t.link.wire = s.link.wire ∧
    t.link.answers = s.link.answers ∧ t.link.rxCount = s.link.rxCount

/-- R249, R265: `RX <n>` puts at most `n` bytes from the front of the queue, the unread ones first, into `IBUF`, their
number into `ILEN`, and leaves the rest of `IBUF` and every other register alone; no other `n` is a move of the host.
The transport's answers and their count (log entry 7) and how far the exchange has come (R266, R267; log entry 14) are the
model's own state. -/
def Obligations.RxMovesTheFrontOfTheQueue : Prop :=
  ∀ (s : State) (n : Nat), s.params.wf →
    (1 ≤ n → n ≤ s.params.inCap →
      ∃ t bytes arrived, runEvent (.rx n) s = .next t ∧ bytes.length ≤ n ∧ inputLoaded s t bytes ∧
        bytes ++ t.link.rxq = s.link.rxq ++ arrived ∧
        t.codec.ctrl = s.codec.ctrl ∧ t.codec.status = s.codec.status ∧ t.codec.opc = s.codec.opc ∧
        t.codec.dev = s.codec.dev ∧ t.codec.elen = s.codec.elen ∧ t.codec.olen = s.codec.olen ∧
        t.codec.val = s.codec.val ∧ t.codec.acc = s.codec.acc ∧ t.codec.obuf = s.codec.obuf ∧
        t.link.wire = s.link.wire ∧ t.link.answers = s.link.answers.tail ∧
        t.link.rxCount = (if s.link.answers = [] then s.link.rxCount + 1 else s.link.rxCount) ∧
        (s.exchange = .closed → t.exchange = .closed) ∧ (s.exchange = .replyRead → t.exchange = .replyRead) ∧
        (s.exchange = .replyDue ∨ s.exchange = .replyShort →
          t.exchange = if bytes.length = n then .replyRead else .replyShort) ∧
        t.params = s.params ∧ t.host = s.host) ∧
    (n = 0 ∨ s.params.inCap < n → runEvent (.rx n) s = .refused .rxLength)

/-- R249: every count from 0 to `n` and all values are possible answers of the transport: on an empty queue, for any
bytes, there is an answer with which `RX <n>` delivers exactly them. -/
def Obligations.EveryRxOutcomeIsPossible : Prop :=
  ∀ (s : State) (n : Nat) (bytes : List Byte), s.params.wf → s.link.rxq = [] → 1 ≤ n → n ≤ s.params.inCap →
    bytes.length ≤ n →
      ∃ a t, runEvent (.rx n) { s with link := { s.link with answers := a :: s.link.answers } } = .next t ∧
        inputIs t bytes ∧ inputLoaded s t bytes

/-- R36: host writes store whole values in the read-write registers and nothing in the read-only ones; `CTRL` is not
among them, its write is the operation. That a script's `WR` may name a read-only register is the model's choice (log
entry 22). -/
def Obligations.HostRegisterWrites : Prop :=
  ∀ (s : State) (b : Byte) (h : Half),
    runEvent (.wr (.opc b)) s = .next { s with codec := { s.codec with opc := b } } ∧
    runEvent (.wr (.dev b)) s = .next { s with codec := { s.codec with dev := b } } ∧
    runEvent (.wr (.elen h)) s = .next { s with codec := { s.codec with elen := h } } ∧
    runEvent (.wr (.ilen h)) s = .next { s with codec := { s.codec with ilen := h } } ∧
    runEvent (.wr (.status b)) s = .next s ∧ runEvent (.wr (.olen h)) s = .next s ∧
    runEvent (.wr (.val h)) s = .next s ∧ runEvent (.wr (.acc b)) s = .next s

/-- R36, R21: a host read gives the host the register's value, whole, and changes nothing in the codec, the link or the
script. -/
def Obligations.HostRegisterReads : Prop :=
  ∀ (s : State) (r : Reg), ∃ t value, runEvent (.rd r) s = .next t ∧ t.host.readback = some value ∧
    (r = .ctrl → value = BitVec.ofNat 16 s.codec.ctrl.toNat) ∧
    (r = .status → value = BitVec.ofNat 16 s.codec.status.toNat) ∧
    (r = .opc → value = BitVec.ofNat 16 s.codec.opc.toNat) ∧
    (r = .dev → value = BitVec.ofNat 16 s.codec.dev.toNat) ∧ (r = .elen → value = s.codec.elen) ∧
    (r = .ilen → value = s.codec.ilen) ∧ (r = .olen → value = s.codec.olen) ∧ (r = .val → value = s.codec.val) ∧
    (r = .acc → value = BitVec.ofNat 16 s.codec.acc.toNat) ∧
    t.codec = s.codec ∧ t.link = s.link ∧ t.params = s.params ∧ t.host.script = s.host.script ∧
    t.exchange = s.exchange

/-- R30, R31, R60, R94, R66, R39: `RB` gives the byte of `OBUF` below `OLEN`, a host read of `IBUF` the byte that has been
written, and nothing else changes (R36); beyond `OLEN`, of a byte without a value, or beyond the buffer there is
nothing to read. `WB` stores one byte of `IBUF` below `IN_CAP`. That the read of `IBUF` is an access to the address space
but no action of the script (R94, R274; log entry 21) and where a read value goes (log entry 16) are the model's. -/
def Obligations.HostBufferAccesses : Prop :=
  ∀ (s : State) (i : Nat),
    (∀ b, i < 259 → i < s.codec.olen.toNat → memRead s.codec.obuf i = some b →
      ∃ t, runEvent (.rb i) s = .next t ∧ t.host.readback = some (BitVec.ofNat 16 b.toNat) ∧
        t.host.script = s.host.script ∧ t.codec = s.codec ∧ t.link = s.link ∧ t.params = s.params ∧
        t.exchange = s.exchange) ∧
    (259 ≤ i → runEvent (.rb i) s = .fault .noOutputIndex) ∧
    (i < 259 → s.codec.olen.toNat ≤ i ∨ memRead s.codec.obuf i = none →
      runEvent (.rb i) s = .fault .unspecifiedOutput) ∧
    (∀ b, i < s.params.inCap → memRead s.codec.ibuf i = some b →
      ∃ t, readByte .ibuf i s = .next t ∧ t.host.readback = some (BitVec.ofNat 16 b.toNat) ∧
        t.host.script = s.host.script ∧ t.codec = s.codec ∧ t.link = s.link ∧ t.params = s.params ∧
        t.exchange = s.exchange) ∧
    (i < s.params.inCap → memRead s.codec.ibuf i = none → readByte .ibuf i s = .fault .unwrittenInput) ∧
    (s.params.inCap ≤ i → readByte .ibuf i s = .fault .noInputIndex) ∧
    (∀ b, i < s.params.inCap →
      ∃ t, runEvent (.wb i b) s = .next t ∧
        (∀ a, memRead t.codec.ibuf a = if a = i then some b else memRead s.codec.ibuf a) ∧
        { t.codec with ibuf := s.codec.ibuf } = s.codec ∧ t.link = s.link ∧ t.params = s.params ∧ t.host = s.host ∧
        t.exchange = s.exchange) ∧
    (∀ b, s.params.inCap ≤ i → runEvent (.wb i b) s = .fault .noInputIndex)

/-- R266, R267, R274: after a command that has a reply has been sent, another `TX` is no move of the host, nor is it when
an `RX` has read of the reply and no decoding operation has run, not even after a `DRAIN` when the reply has been read
whole. A host that gives up, before any `RX` or after a short one, recovers by the next exchange's `DRAIN`; one that
reads, decodes and builds its next frame may send it. Which commands have a reply, and what counts as giving up, are
log entries 8 and 14. -/
def Obligations.OneCommandInFlight : Prop :=
  ∀ (s t : State) (frame : List Byte), runEvent .tx s = .next t → outputIs s frame → expectsReply frame = true →
    runEvent .tx t = .refused .exchangeOpen ∧
    (∃ u, runEvents [.drain, .tx] t = .next u ∧ u.link.wire = t.link.wire ++ frame) ∧
    ∀ n, 1 ≤ n → n ≤ s.params.inCap → s.params.wf →
      runEvents [.rx n, .tx] t = .refused .exchangeOpen ∧
      ((delivered n t.link).length = n → runEvents [.rx n, .drain, .tx] t = .refused .exchangeOpen) ∧
      ((delivered n t.link).length < n →
        ∃ u, runEvents [.rx n, .drain, .tx] t = .next u ∧ u.link.wire = t.link.wire ++ frame) ∧
      ∀ w ∈ [(0x05 : Byte), 0x06, 0x07, 0x17, 0x27, 0x37, 0x47],
        ∃ u, runEvents [.rx n, .op w, .wr (.ilen 0), .op 0x01, .drain, .tx] t = .next u ∧
          u.link.wire = t.link.wire ++ [0xAA, t.codec.opc, 0x00, 0xAA + t.codec.opc]

/-- R34, R60, R22: the result registers, `CTRL` and `OBUF` are written by operations and reset only, never by another
host action or by the transport. -/
def Obligations.OnlyOperationsWriteResults : Prop :=
  ∀ (e : Event) (s t : State), (∀ w, e ≠ .op w) → (∀ bs, e ≠ .command bs) → e ≠ .reset → runEvent e s = .next t →
    t.codec.ctrl = s.codec.ctrl ∧ t.codec.status = s.codec.status ∧ t.codec.olen = s.codec.olen ∧
    t.codec.val = s.codec.val ∧ t.codec.acc = s.codec.acc ∧ t.codec.obuf = s.codec.obuf

/-! ### The whole machine -/

/-- A step takes the next event of the script and runs it; a word of each position runs the instruction it decodes to;
a word of the opcode table put in front of the script is what the next step runs. The script stands where other
hardware has a program counter (R26; log entries 1 and 11). -/
def Obligations.StepRunsTheDecodedInstruction : Prop :=
  ∀ (s : State) (rest : List Event) (i : Instr) (tail : List Byte),
    (∀ w, s.host.script = .op w :: rest → decode .ctrl [w] = .ok (i, tail) →
      step s = exec i { s with host := { s.host with script := rest } }) ∧
    (∀ bs, s.host.script = .command bs :: rest → decode .driver bs = .ok (i, tail) →
      step s = exec i { s with host := { s.host with script := rest } }) ∧
    (∀ bs, s.host.script = .arrive bs :: rest → decode .line bs = .ok (i, tail) →
      step s = exec i { s with host := { s.host with script := rest } }) ∧
    (∀ e, s.host.script = e :: rest → step s = runEvent e { s with host := { s.host with script := rest } }) ∧
    (∀ nbits w, decodeTableWord nbits w = some i → step (s.withFetchWord nbits w) = exec i s)

/-- The reset state meets the invariants. -/
def Obligations.ResetMeetsTheInvariants : Prop :=
  machineInv State.reset ∧ frameInv State.reset

/-- Every step keeps the invariant of the machine, from every state that meets it. -/
def Obligations.StepKeepsTheInvariant : Prop :=
  ∀ s t : State, machineInv s → step s = .next t → machineInv t

/-- Every step keeps it true that what a builder left in `OBUF` is a sealed frame (R113): a command frame cannot be
damaged between its building and its sending. -/
def Obligations.BuiltFramesStaySealed : Prop :=
  ∀ s t : State, frameInv s → step s = .next t → frameInv t

/-- No step changes the parameters (R7), and what has been transmitted stays transmitted: the wire only grows, by
whole outputs (R62, R248). -/
def Obligations.ParametersFixedAndWireOnlyGrows : Prop :=
  ∀ s t : State, step s = .next t → t.params = s.params ∧ ∃ sent, t.link.wire = s.link.wire ++ sent

/-- R266, R267, over every event: an open exchange ends only with a decoding operation once an `RX` has read of the
reply, or with a `DRAIN` by which the host gives it up, a query's own among them; and only a `TX` leaves one
open that was not. How far an exchange has come is log entry 14's. -/
def Obligations.ExchangeEndsByDecodingOrGivingUp : Prop :=
  ∀ (e : Event) (s t : State), runEvent e s = .next t →
    (s.exchange ≠ .closed → t.exchange = .closed →
      ((∃ w ∈ [(0x05 : Byte), 0x06, 0x07, 0x17, 0x27, 0x37, 0x47], e = .op w) ∧ s.exchange ≠ .replyDue) ∨
      (e = .drain ∧ s.exchange ≠ .replyRead) ∨
      ∃ bs i rest, e = .command bs ∧ decode .driver bs = .ok (i, rest) ∧ (queryOf i).isSome ∧
        s.exchange ≠ .replyRead) ∧
    (s.exchange = .closed → t.exchange ≠ .closed →
      e = .tx ∧ t.exchange = .replyDue ∧
        ∃ frame, expectsReply frame = true ∧ t.link.wire = s.link.wire ++ frame)

/-- R29, R31, R66: an operation other than a decoding one on a reply of 264 bytes or more leaves at most 259 bytes of
output, and `OBUF` holds exactly the bytes below `OLEN`. The longer replies are log entry 12's. -/
def Obligations.OutputsFitTheBuffer : Prop :=
  ∀ (w : Byte) (s t : State), runEvent (.op w) s = .next t →
    (w ∈ [(0x05 : Byte), 0x06, 0x07, 0x17, 0x27, 0x37, 0x47] → s.codec.ilen.toNat ≤ 263) →
      t.codec.olen.toNat ≤ 259 ∧ ∀ a, (memRead t.codec.obuf a).isSome = decide (a < t.codec.olen.toNat)
end

