-- ==== Sys2Proof/Laws/Bytes.lean ====
section
/-! SUPPORT. What the functions on bytes do: the checksum, paths, entries, the tests on a reply, `STATUS`. -/

namespace Sys2Proof.Machine

/-! ### The checksum -/

@[simp] theorem sum8_nil : sum8 [] = 0 := rfl
@[simp] theorem sum8_cons (b : Byte) (bs : List Byte) : sum8 (b :: bs) = b + sum8 bs := rfl

theorem sum8_append_byte (bs : List Byte) (b : Byte) : sum8 (bs ++ [b]) = sum8 bs + b := by
  induction bs with
  | nil => simp
  | cons a bs ih => simp [ih, BitVec.add_assoc]

@[simp] theorem sealFrame_dropLast (body : List Byte) : (sealFrame body).dropLast = body := by
  simp [sealFrame]

@[simp] theorem sealFrame_getLast? (body : List Byte) : (sealFrame body).getLast? = some (sum8 body) := by
  simp [sealFrame]

@[simp] theorem sealFrame_length (body : List Byte) : (sealFrame body).length = body.length + 1 := by
  simp [sealFrame]

@[simp] theorem frameBody_length (opc : Byte) (p : List Byte) : (frameBody opc p).length = p.length + 3 := by
  simp [frameBody]

/-- The sum carried entry by entry is the sum of the whole, when no byte is left over. -/
theorem addEntries_eq (e : List Byte) (acc : Byte) (h : e.length % 2 = 0) : addEntries acc e = acc + sum8 e := by
  match e with
  | [] => simp [addEntries]
  | [a] => simp at h
  | a :: b :: e =>
    have he : e.length % 2 = 0 := by simp only [List.length_cons] at h; omega
    simp only [addEntries, addEntries_eq e _ he, sum8_cons, BitVec.add_assoc]

/-! ### Entries -/

@[simp] theorem entryBytes_length (es : List (Byte × Byte)) : (entryBytes es).length = 2 * es.length := by
  induction es with
  | nil => rfl
  | cons e es ih => simp only [entryBytes, List.length_cons, ih]; omega

@[simp] theorem pairUp_entryBytes (es : List (Byte × Byte)) : pairUp (entryBytes es) = es := by
  induction es with
  | nil => rfl
  | cons e es ih => simp [entryBytes, pairUp, ih]

theorem entryBytes_pairUp (bs : List Byte) (h : bs.length % 2 = 0) : entryBytes (pairUp bs) = bs := by
  match bs with
  | [] => rfl
  | [a] => simp at h
  | a :: b :: bs =>
    have hb : bs.length % 2 = 0 := by simp only [List.length_cons] at h; omega
    simp [pairUp, entryBytes, entryBytes_pairUp bs hb]

@[simp] theorem entryBytes_eq_nil (es : List (Byte × Byte)) : entryBytes es = [] ↔ es = [] := by
  cases es <;> simp [entryBytes]

/-! ### Paths -/

/-- `new_len` counts the path's bytes and its inner slashes. -/
theorem newLen_cons (first : Byte) (others : List Byte) :
    newLen (first :: others) = others.length + 1 + others.count slash := by
  have : slashes (first :: others) = others.count slash + leading (first :: others) := by
    simp only [slashes, leading, List.countP_cons, List.count, List.head?_cons, Option.some.injEq, beq_iff_eq]
  rw [newLen, this, List.length_cons]
  omega

/-- A path is encoded or it is one of two errors, in this order. -/
theorem encodePath_cons (glyph dev first : Byte) (others : List Byte) :
    encodePath glyph dev (first :: others) =
      if 255 < newLen (first :: others) + 1 then .error .invalidPayloadLength
      else .ok ([BitVec.ofNat 8 (newLen (first :: others) + 1), dev, first] ++ others.map (transform glyph)) := rfl

@[simp] theorem encodePath_nil (glyph dev : Byte) : encodePath glyph dev [] = .error .emptyPath := rfl

/-- An encoded path has at most 256 bytes: length byte, device code, path. -/
theorem encodePath_ok_length (glyph dev : Byte) (path out : List Byte) (h : encodePath glyph dev path = .ok out) :
    out.length = path.length + 2 ∧ path.length ≤ 254 := by
  cases path with
  | nil => simp at h
  | cons first others =>
    rw [encodePath_cons] at h
    split at h
    · simp at h
    · rename_i hl
      simp only [Except.ok.injEq] at h
      subst h
      rw [newLen_cons] at hl
      simp only [List.length_append, List.length_map, List.length_cons, List.length_nil]
      omega

/-! ### Replies -/

theorem checkReply_zero (raw : List Byte) :
    checkReply 0 raw = { code := .badOperand, acc := 0, payload := [] } := rfl

theorem checkReply_short (n : Nat) (raw : List Byte) (h0 : n ≠ 0) (h : raw.length < n) :
    checkReply n raw = { code := .shortRead, acc := 0, payload := [] } := by
  simp [checkReply, h0, h]

theorem getLastD_eq_iff (raw : List Byte) (b : Byte) (hne : raw ≠ []) :
    b = raw.getLastD 0 ↔ raw.getLast? = some b := by
  rw [List.getLastD_eq_getLast?, List.getLast?_eq_some_getLast hne]
  simp [eq_comm]

theorem checkReply_mismatch (n : Nat) (raw : List Byte) (h0 : n ≠ 0) (h : n ≤ raw.length)
    (hs : raw.getLast? ≠ some (sum8 raw.dropLast)) :
    checkReply n raw = { code := .checksumMismatch, acc := sum8 raw.dropLast, payload := [] } := by
  have hne : raw ≠ [] := by rintro rfl; simp at h; exact h0 h
  rw [checkReply, if_neg h0, if_neg (Nat.not_lt.2 h), if_pos fun hc => hs ((getLastD_eq_iff raw _ hne).1 hc)]

theorem checkReply_ok (n : Nat) (raw : List Byte) (h0 : n ≠ 0) (h : n ≤ raw.length)
    (hs : raw.getLast? = some (sum8 raw.dropLast)) :
    checkReply n raw = { code := .ok, acc := sum8 raw.dropLast, payload := replyPayload raw } := by
  have hne : raw ≠ [] := by rintro rfl; simp at h; exact h0 h
  rw [checkReply, if_neg h0, if_neg (Nat.not_lt.2 h), if_neg fun hc => hc ((getLastD_eq_iff raw _ hne).2 hs)]

/-- The tests pass exactly when the length is enough and the last byte is the sum of the others. -/
theorem checkReply_code_ok_iff (n : Nat) (raw : List Byte) :
    (checkReply n raw).code = .ok ↔ n ≠ 0 ∧ n ≤ raw.length ∧ raw.getLast? = some (sum8 raw.dropLast) := by
  by_cases h0 : n = 0
  · subst h0; simp [checkReply_zero]
  · by_cases h : n ≤ raw.length
    · by_cases hs : raw.getLast? = some (sum8 raw.dropLast)
      · simp [checkReply_ok n raw h0 h hs, h0, h, hs]
      · simp [checkReply_mismatch n raw h0 h hs, hs]
    · simp [checkReply_short n raw h0 (by omega), h]

@[simp] theorem replyPayload_length (raw : List Byte) : (replyPayload raw).length = raw.length - 4 := by
  simp only [replyPayload, List.length_drop, List.length_dropLast]
  omega

/-- The exposed payload, byte by byte. -/
theorem replyPayload_getElem? (raw : List Byte) (k : Nat) :
    (replyPayload raw)[k]? = if k + 4 < raw.length then raw[k + 3]? else none := by
  simp only [replyPayload, List.getElem?_drop, List.getElem?_dropLast, Nat.add_comm 3 k]
  split <;> split <;> first | rfl | omega

/-! ### `STATUS` -/

@[simp] theorem errOf_statusByte (code : ResultCode) (efail : Bool) :
    errOf (statusByte code efail) = codeNumber code := by
  cases code <;> cases efail <;> rfl

@[simp] theorem efailOf_statusByte (code : ResultCode) (efail : Bool) :
    efailOf (statusByte code efail) = efail := by
  cases code <;> cases efail <;> rfl

@[simp] theorem statusByte_reserved (code : ResultCode) (efail : Bool) : statusByte code efail &&& 240#8 = 0#8 := by
  cases code <;> cases efail <;> rfl

@[simp] theorem codeNumber_eq_zero (code : ResultCode) : codeNumber code = 0 ↔ code = .ok := by
  cases code <;> simp [codeNumber]

theorem codeNumber_produced (code : ResultCode) : codeNumber code ≠ 5 ∧ codeNumber code ≠ 6 := by
  cases code <;> simp [codeNumber]

end Sys2Proof.Machine
end

