-- ==== Sys2Proof/Laws/Decode.lean ====
section
/-! SUPPORT. The parts of the decoder: operands taken from the front of the bytes, length bytes. -/

namespace Sys2Proof

/-- A length byte holds every count up to 255. -/
theorem lengthByte_toNat (n : Nat) (h : n ≤ 255) : (BitVec.ofNat 8 n).toNat = n := by
  rw [BitVec.toNat_ofNat, Nat.mod_eq_of_lt (by omega)]

/-- A byte is the length byte of the count it holds. -/
theorem lengthByte_of_toNat (b : Byte) : BitVec.ofNat 8 b.toNat = b := by simp

theorem takeOperand_append (mk : List Byte → Instr) (bs rest : List Byte) :
    takeOperand mk bs.length (bs ++ rest) = .ok (mk bs, rest) := by
  simp [takeOperand]

theorem takeOperand_ok (mk : List Byte → Instr) (n : Nat) (bs : List Byte) (i : Instr) (rest : List Byte) :
    takeOperand mk n bs = .ok (i, rest) ↔ ∃ p, p.length = n ∧ i = mk p ∧ bs = p ++ rest := by
  simp only [takeOperand]
  constructor
  · intro h
    split at h
    · simp at h
    · simp only [Except.ok.injEq, Prod.mk.injEq] at h
      exact ⟨bs.take n, by simp; omega, h.1.symm, by rw [← h.2, List.take_append_drop]⟩
  · rintro ⟨p, rfl, rfl, rfl⟩
    simp

theorem takeNothing_ok (i : Instr) (n : Nat) (bs : List Byte) (j : Instr) (rest : List Byte) :
    takeNothing i n bs = .ok (j, rest) ↔ n = 0 ∧ j = i ∧ rest = bs := by
  simp only [takeNothing]
  split <;> simp_all [eq_comm]

theorem takePath_ok (mk : Byte → List Byte → Instr) (n : Nat) (bs : List Byte) (i : Instr) (rest : List Byte) :
    takePath mk n bs = .ok (i, rest) ↔ ∃ dev p, p.length = n ∧ i = mk dev p ∧ bs = dev :: (p ++ rest) := by
  cases bs with
  | nil => simp [takePath]
  | cons dev tail =>
    rw [takePath, takeOperand_ok]
    simp only [List.cons.injEq]
    exact ⟨fun ⟨p, h1, h2, h3⟩ => ⟨dev, p, h1, h2, rfl, h3⟩, fun ⟨d, p, h1, h2, h3, h4⟩ => ⟨p, h1, h3 ▸ h2, h4⟩⟩

theorem takeEntries_ok (n : Nat) (bs : List Byte) (i : Instr) (rest : List Byte) :
    takeEntries n bs = .ok (i, rest) ↔
      ∃ es, 2 * es.length = n ∧ i = .combinationPlay es ∧ bs = entryBytes es ++ rest := by
  simp only [takeEntries]
  constructor
  · intro h
    split at h
    · simp at h
    · obtain ⟨p, rfl, rfl, rfl⟩ := (takeOperand_ok _ _ _ _ _).1 h
      refine ⟨pairUp p, ?_, rfl, by rw [Machine.entryBytes_pairUp p (by omega)]⟩
      rw [← Machine.entryBytes_length, Machine.entryBytes_pairUp p (by omega)]
  · rintro ⟨es, rfl, rfl, rfl⟩
    rw [if_neg (by omega), takeOperand_ok]
    exact ⟨entryBytes es, by simp, by simp, rfl⟩

end Sys2Proof
end

