-- ==== Sys2Proof/Laws/Memory.lean ====
section
/-! SUPPORT. What the buffer operations do: read after write, sequences, the canonical form. -/

namespace Sys2Proof.Machine

theorem memRead_memWrite (m : Memory) (a : Nat) (b : Byte) (x : Nat) :
    memRead (memWrite m a b) x = if x = a then some b else memRead m x := by
  induction m with
  | nil => simp only [memWrite, memRead, eq_comm]
  | cons c m ih =>
    simp only [memWrite]
    split
    · simp only [memRead, eq_comm (a := a)]
    · split
      · subst a; simp only [memRead, eq_comm (a := c.1)]; split <;> simp_all
      · simp only [memRead, ih]; split <;> simp_all; omega

theorem rising_cons_iff (c : Host.Cell) (m : Memory) :
    Memory.rising (c :: m) = true ↔ (∀ d ∈ m.head?, c.1 < d.1) ∧ Memory.rising m = true := by
  cases m <;> simp [Memory.rising]

theorem memWrite_head? (m : Memory) (a : Nat) (b : Byte) :
    ∀ d ∈ (memWrite m a b).head?, d.1 = a ∨ d ∈ m.head? := by
  cases m with
  | nil => simp [memWrite]
  | cons c m => simp only [memWrite]; split <;> (try split) <;> simp

theorem memWrite_rising (m : Memory) (a : Nat) (b : Byte) (h : Memory.rising m = true) :
    Memory.rising (memWrite m a b) = true := by
  induction m with
  | nil => rfl
  | cons c m ih =>
    have hc := (rising_cons_iff c m).1 h
    simp only [memWrite]
    split
    · exact (rising_cons_iff _ _).2 ⟨by simpa using ‹a < c.1›, h⟩
    · split
      · exact (rising_cons_iff _ _).2 ⟨fun d hd => by have := hc.1 d hd; dsimp only; omega, hc.2⟩
      · refine (rising_cons_iff _ _).2 ⟨fun d hd => ?_, ih hc.2⟩
        rcases memWrite_head? m a b d hd with h' | h'
        · omega
        · exact hc.1 d h'

theorem memWrite_all_lt (cap : Nat) (m : Memory) (a : Nat) (b : Byte) (ha : a < cap)
    (h : (m.all fun c => decide (c.1 < cap)) = true) :
    ((memWrite m a b).all fun c => decide (c.1 < cap)) = true := by
  induction m with
  | nil => simpa [memWrite] using ha
  | cons c m ih =>
    simp only [List.all_cons, Bool.and_eq_true, decide_eq_true_eq] at h
    simp only [memWrite]
    split
    · simp [ha, h.1]; simpa using h.2
    · split
      · simp [ha]; simpa using h.2
      · simp only [List.all_cons, Bool.and_eq_true, decide_eq_true_eq]; exact ⟨h.1, ih h.2⟩

theorem memWrite_wf (cap : Nat) (m : Memory) (a : Nat) (b : Byte) (h : Memory.wf cap m = true) (ha : a < cap) :
    Memory.wf cap (memWrite m a b) = true := by
  simp only [Memory.wf, Bool.and_eq_true] at h ⊢
  exact ⟨memWrite_rising m a b h.1, memWrite_all_lt cap m a b ha h.2⟩

/-- A sequence written at `base` reads back byte by byte, and every other byte is as before. -/
theorem memRead_memWriteBytes (m : Memory) (base : Nat) (bs : List Byte) (x : Nat) :
    memRead (memWriteBytes m base bs) x =
      if base ≤ x ∧ x < base + bs.length then bs[x - base]? else memRead m x := by
  induction bs generalizing m base with
  | nil => simp [memWriteBytes]
  | cons b bs ih =>
    rw [memWriteBytes, ih, memRead_memWrite]
    by_cases hx : x = base
    · subst hx; simp
    · by_cases hr : base + 1 ≤ x ∧ x < base + 1 + bs.length
      · have : base ≤ x ∧ x < base + (b :: bs).length := by simp; omega
        rw [if_pos hr, if_pos this, show x - base = (x - (base + 1)) + 1 by omega]; simp
      · have : ¬(base ≤ x ∧ x < base + (b :: bs).length) := by simp; omega
        rw [if_neg hr, if_neg this, if_neg hx]

theorem memRead_memWriteBytes_zero (m : Memory) (bs : List Byte) (x : Nat) :
    memRead (memWriteBytes m 0 bs) x = if x < bs.length then bs[x]? else memRead m x := by
  simp [memRead_memWriteBytes]

theorem memWriteBytes_wf (cap : Nat) (m : Memory) (base : Nat) (bs : List Byte) (h : Memory.wf cap m = true)
    (hb : base + bs.length ≤ cap) : Memory.wf cap (memWriteBytes m base bs) = true := by
  induction bs generalizing m base with
  | nil => exact h
  | cons b bs ih =>
    simp only [List.length_cons] at hb
    exact ih _ _ (memWrite_wf cap m base b h (by omega)) (by omega)

/-- Reading `n` bytes answers `bs` exactly when each of the `n` holds the byte of `bs`. -/
theorem memReadBytes_eq_some_iff (m : Memory) (base n : Nat) (bs : List Byte) :
    memReadBytes m base n = some bs ↔ bs.length = n ∧ ∀ k, k < n → memRead m (base + k) = bs[k]? := by
  induction n generalizing base bs with
  | zero => cases bs <;> simp [memReadBytes]
  | succ n ih =>
    rw [memReadBytes]
    cases bs with
    | nil => cases memRead m base <;> cases memReadBytes m (base + 1) n <;> simp
    | cons b bs =>
      have hsplit : (∀ k, k < n + 1 → memRead m (base + k) = (b :: bs)[k]?) ↔
          memRead m base = some b ∧ ∀ k, k < n → memRead m (base + 1 + k) = bs[k]? := by
        constructor
        · intro h
          exact ⟨by simpa using h 0 (by omega), fun k hk => by
            have := h (k + 1) (by omega); rw [show base + 1 + k = base + (k + 1) by omega]; simpa using this⟩
        · rintro ⟨h0, h⟩ k hk
          cases k with
          | zero => simpa using h0
          | succ k => rw [show base + (k + 1) = base + 1 + k by omega]; simpa using h k (by omega)
      rw [hsplit, List.length_cons, Nat.add_right_cancel_iff]
      constructor
      · intro h
        split at h
        · rename_i b' bs' hb hbs
          simp only [Option.some.injEq, List.cons.injEq] at h
          obtain ⟨rfl, rfl⟩ := h
          have := (ih _ _).1 hbs
          exact ⟨this.1, hb, this.2⟩
        · simp at h
      · rintro ⟨hl, hb, hr⟩
        rw [hb, (ih (base + 1) bs).2 ⟨hl, hr⟩]

/-- Reading fails exactly when one of the bytes holds no value. -/
theorem memReadBytes_eq_none_iff (m : Memory) (base n : Nat) :
    memReadBytes m base n = none ↔ ∃ k, k < n ∧ memRead m (base + k) = none := by
  induction n generalizing base with
  | zero => simp [memReadBytes]
  | succ n ih =>
    rw [memReadBytes]
    constructor
    · intro h
      split at h
      · simp at h
      · rename_i hne
        by_cases h0 : memRead m base = none
        · exact ⟨0, by omega, by simpa using h0⟩
        · obtain ⟨b, hb⟩ := Option.ne_none_iff_exists'.1 h0
          have h1 : memReadBytes m (base + 1) n = none := by
            by_contra hc
            obtain ⟨bs, hbs⟩ := Option.ne_none_iff_exists'.1 hc
            exact hne b bs hb hbs
          obtain ⟨k, hk, hr⟩ := (ih _).1 h1
          exact ⟨k + 1, by omega, by rwa [show base + (k + 1) = base + 1 + k by omega]⟩
    · rintro ⟨k, hk, hr⟩
      cases k with
      | zero => rw [show base + 0 = base by rfl] at hr; rw [hr]
      | succ k =>
        rw [(ih (base + 1)).2 ⟨k, by omega, by rwa [show base + 1 + k = base + (k + 1) by omega]⟩]
        cases memRead m base <;> rfl

theorem memReadBytes_congr (m m' : Memory) (n : Nat) (h : ∀ k, k < n → memRead m k = memRead m' k) :
    memReadBytes m 0 n = memReadBytes m' 0 n := by
  cases h' : memReadBytes m' 0 n with
  | none =>
    obtain ⟨k, hk, hr⟩ := (memReadBytes_eq_none_iff m' 0 n).1 h'
    exact (memReadBytes_eq_none_iff m 0 n).2 ⟨k, hk, by simpa [h k hk] using hr⟩
  | some bs =>
    obtain ⟨hl, hr⟩ := (memReadBytes_eq_some_iff m' 0 n bs).1 h'
    exact (memReadBytes_eq_some_iff m 0 n bs).2 ⟨hl, fun k hk => by
      rw [show (0 + k) = k by omega, h k hk]; simpa using hr k hk⟩

/-- A sequence written from index 0 on is read back. -/
theorem memReadBytes_memWriteBytes (m : Memory) (bs : List Byte) :
    memReadBytes (memWriteBytes m 0 bs) 0 bs.length = some bs := by
  refine (memReadBytes_eq_some_iff _ _ _ _).2 ⟨rfl, fun k hk => ?_⟩
  simp [memRead_memWriteBytes, hk]

/-! ### A buffer written from empty -/

theorem memWrite_beyond (m : Memory) (a : Nat) (b : Byte) (h : ∀ c ∈ m, c.1 < a) :
    memWrite m a b = m ++ [(a, b)] := by
  induction m with
  | nil => rfl
  | cons c m ih =>
    have hc := h c (by simp)
    rw [memWrite, if_neg (by omega), if_neg (by omega), ih fun d hd => h d (by simp [hd])]
    rfl

theorem memWriteBytes_fst (m : Memory) (base : Nat) (bs : List Byte) (h : ∀ c ∈ m, c.1 < base) :
    (memWriteBytes m base bs).map Prod.fst = m.map Prod.fst ++ List.range' base bs.length := by
  induction bs generalizing m base with
  | nil => simp [memWriteBytes]
  | cons b bs ih =>
    rw [memWriteBytes, memWrite_beyond m base b h, ih]
    · simp [List.range'_succ]
    · intro c hc
      simp only [List.mem_append, List.mem_singleton] at hc
      rcases hc with hc | rfl
      · have := h c hc; omega
      · simp

/-- The indices that hold a value in a buffer written from empty. -/
theorem memWriteBytes_nil_fst (bs : List Byte) :
    (memWriteBytes [] 0 bs).map Prod.fst = List.range bs.length := by
  rw [memWriteBytes_fst [] 0 bs (by simp), List.range_eq_range']
  rfl

end Sys2Proof.Machine
end

