-- ==== Sys2Proof/Laws/State.lean ====
section
/-! SUPPORT. One lemma per field per update, so that no proof unfolds a record update. -/

namespace Sys2Proof.Machine

/-! ### `beginOp` -/

@[simp] theorem beginOp_ctrl (w : Byte) (c : Codec) : (beginOp w c).ctrl = w := rfl
@[simp] theorem beginOp_status (w : Byte) (c : Codec) : (beginOp w c).status = 0x00 := rfl
@[simp] theorem beginOp_opc (w : Byte) (c : Codec) : (beginOp w c).opc = c.opc := rfl
@[simp] theorem beginOp_dev (w : Byte) (c : Codec) : (beginOp w c).dev = c.dev := rfl
@[simp] theorem beginOp_elen (w : Byte) (c : Codec) : (beginOp w c).elen = c.elen := rfl
@[simp] theorem beginOp_ilen (w : Byte) (c : Codec) : (beginOp w c).ilen = c.ilen := rfl
@[simp] theorem beginOp_olen (w : Byte) (c : Codec) : (beginOp w c).olen = 0 := rfl
@[simp] theorem beginOp_val (w : Byte) (c : Codec) : (beginOp w c).val = 0 := rfl
@[simp] theorem beginOp_acc (w : Byte) (c : Codec) : (beginOp w c).acc = 0 := rfl
@[simp] theorem beginOp_ibuf (w : Byte) (c : Codec) : (beginOp w c).ibuf = c.ibuf := rfl
@[simp] theorem beginOp_obuf (w : Byte) (c : Codec) : (beginOp w c).obuf = [] := rfl

/-! ### `raiseCode` -/

@[simp] theorem raiseCode_ctrl (code : ResultCode) (c : Codec) : (raiseCode code c).ctrl = c.ctrl := rfl
@[simp] theorem raiseCode_status (code : ResultCode) (c : Codec) : (raiseCode code c).status = statusByte code (efailOnError c.ctrl) := rfl
@[simp] theorem raiseCode_opc (code : ResultCode) (c : Codec) : (raiseCode code c).opc = c.opc := rfl
@[simp] theorem raiseCode_dev (code : ResultCode) (c : Codec) : (raiseCode code c).dev = c.dev := rfl
@[simp] theorem raiseCode_elen (code : ResultCode) (c : Codec) : (raiseCode code c).elen = c.elen := rfl
@[simp] theorem raiseCode_ilen (code : ResultCode) (c : Codec) : (raiseCode code c).ilen = c.ilen := rfl
@[simp] theorem raiseCode_olen (code : ResultCode) (c : Codec) : (raiseCode code c).olen = 0 := rfl
@[simp] theorem raiseCode_val (code : ResultCode) (c : Codec) : (raiseCode code c).val = 0 := rfl
@[simp] theorem raiseCode_acc (code : ResultCode) (c : Codec) : (raiseCode code c).acc = c.acc := rfl
@[simp] theorem raiseCode_ibuf (code : ResultCode) (c : Codec) : (raiseCode code c).ibuf = c.ibuf := rfl
@[simp] theorem raiseCode_obuf (code : ResultCode) (c : Codec) : (raiseCode code c).obuf = [] := rfl

/-! ### `emit` -/

@[simp] theorem emit_ctrl (bs : List Byte) (c : Codec) : (emit bs c).ctrl = c.ctrl := rfl
@[simp] theorem emit_status (bs : List Byte) (c : Codec) : (emit bs c).status = c.status := rfl
@[simp] theorem emit_opc (bs : List Byte) (c : Codec) : (emit bs c).opc = c.opc := rfl
@[simp] theorem emit_dev (bs : List Byte) (c : Codec) : (emit bs c).dev = c.dev := rfl
@[simp] theorem emit_elen (bs : List Byte) (c : Codec) : (emit bs c).elen = c.elen := rfl
@[simp] theorem emit_ilen (bs : List Byte) (c : Codec) : (emit bs c).ilen = c.ilen := rfl
@[simp] theorem emit_olen (bs : List Byte) (c : Codec) : (emit bs c).olen = BitVec.ofNat 16 bs.length := rfl
@[simp] theorem emit_val (bs : List Byte) (c : Codec) : (emit bs c).val = c.val := rfl
@[simp] theorem emit_acc (bs : List Byte) (c : Codec) : (emit bs c).acc = c.acc := rfl
@[simp] theorem emit_ibuf (bs : List Byte) (c : Codec) : (emit bs c).ibuf = c.ibuf := rfl
@[simp] theorem emit_obuf (bs : List Byte) (c : Codec) : (emit bs c).obuf = memWriteBytes [] 0 (bs.take obufCap) := rfl

/-! ### `succeed` -/

@[simp] theorem succeed_ctrl (bs : List Byte) (ck : Byte) (c : Codec) : (succeed bs ck c).ctrl = c.ctrl := rfl
@[simp] theorem succeed_status (bs : List Byte) (ck : Byte) (c : Codec) : (succeed bs ck c).status = statusByte .ok false := rfl
@[simp] theorem succeed_opc (bs : List Byte) (ck : Byte) (c : Codec) : (succeed bs ck c).opc = c.opc := rfl
@[simp] theorem succeed_dev (bs : List Byte) (ck : Byte) (c : Codec) : (succeed bs ck c).dev = c.dev := rfl
@[simp] theorem succeed_elen (bs : List Byte) (ck : Byte) (c : Codec) : (succeed bs ck c).elen = c.elen := rfl
@[simp] theorem succeed_ilen (bs : List Byte) (ck : Byte) (c : Codec) : (succeed bs ck c).ilen = c.ilen := rfl
@[simp] theorem succeed_olen (bs : List Byte) (ck : Byte) (c : Codec) : (succeed bs ck c).olen = BitVec.ofNat 16 bs.length := rfl
@[simp] theorem succeed_val (bs : List Byte) (ck : Byte) (c : Codec) : (succeed bs ck c).val = c.val := rfl
@[simp] theorem succeed_acc (bs : List Byte) (ck : Byte) (c : Codec) : (succeed bs ck c).acc = ck := rfl
@[simp] theorem succeed_ibuf (bs : List Byte) (ck : Byte) (c : Codec) : (succeed bs ck c).ibuf = c.ibuf := rfl
@[simp] theorem succeed_obuf (bs : List Byte) (ck : Byte) (c : Codec) : (succeed bs ck c).obuf = memWriteBytes [] 0 (bs.take obufCap) := rfl

/-! ### Host register writes -/

@[simp] theorem hostWrite_ctrl (w : RegWrite) (c : Codec) : (hostWrite w c).ctrl = c.ctrl := by cases w <;> rfl
@[simp] theorem hostWrite_status (w : RegWrite) (c : Codec) : (hostWrite w c).status = c.status := by cases w <;> rfl
@[simp] theorem hostWrite_olen (w : RegWrite) (c : Codec) : (hostWrite w c).olen = c.olen := by cases w <;> rfl
@[simp] theorem hostWrite_val (w : RegWrite) (c : Codec) : (hostWrite w c).val = c.val := by cases w <;> rfl
@[simp] theorem hostWrite_acc (w : RegWrite) (c : Codec) : (hostWrite w c).acc = c.acc := by cases w <;> rfl
@[simp] theorem hostWrite_ibuf (w : RegWrite) (c : Codec) : (hostWrite w c).ibuf = c.ibuf := by cases w <;> rfl
@[simp] theorem hostWrite_obuf (w : RegWrite) (c : Codec) : (hostWrite w c).obuf = c.obuf := by cases w <;> rfl

/-! ### The link -/

@[simp] theorem linkAfterRead_rxq (n : Nat) (l : Link) :
    (linkAfterRead n l).rxq = (queueAtRead l).drop (actualCount n l) := rfl
@[simp] theorem linkAfterRead_answers (n : Nat) (l : Link) :
    (linkAfterRead n l).answers = l.answers.tail := rfl
@[simp] theorem linkAfterRead_rxCount (n : Nat) (l : Link) :
    (linkAfterRead n l).rxCount = if l.answers = [] then l.rxCount + 1 else l.rxCount := rfl
@[simp] theorem linkAfterRead_wire (n : Nat) (l : Link) :
    (linkAfterRead n l).wire = l.wire := rfl

/-! ### States -/

@[simp] theorem endOp_params (w : Byte) (c : Codec) (s : State) : (endOp w c s).params = s.params := rfl
@[simp] theorem endOp_codec (w : Byte) (c : Codec) (s : State) : (endOp w c s).codec = c := rfl
@[simp] theorem endOp_link (w : Byte) (c : Codec) (s : State) : (endOp w c s).link = s.link := rfl
@[simp] theorem endOp_host (w : Byte) (c : Codec) (s : State) : (endOp w c s).host = s.host := rfl
@[simp] theorem endOp_exchange (w : Byte) (c : Codec) (s : State) :
    (endOp w c s).exchange = exchangeAfterOp w s.exchange := rfl

@[simp] theorem giveHost_params (v : Half) (s : State) : (giveHost v s).params = s.params := rfl
@[simp] theorem giveHost_codec (v : Half) (s : State) : (giveHost v s).codec = s.codec := rfl
@[simp] theorem giveHost_link (v : Half) (s : State) : (giveHost v s).link = s.link := rfl
@[simp] theorem giveHost_script (v : Half) (s : State) : (giveHost v s).host.script = s.host.script := rfl
@[simp] theorem giveHost_readback (v : Half) (s : State) : (giveHost v s).host.readback = some v := rfl
@[simp] theorem giveHost_exchange (v : Half) (s : State) : (giveHost v s).exchange = s.exchange := rfl

@[simp] theorem arriveBytes_params (bs : List Byte) (s : State) : (arriveBytes bs s).params = s.params := rfl
@[simp] theorem arriveBytes_codec (bs : List Byte) (s : State) : (arriveBytes bs s).codec = s.codec := rfl
@[simp] theorem arriveBytes_link (bs : List Byte) (s : State) : (arriveBytes bs s).link = { s.link with rxq := s.link.rxq ++ bs } := rfl
@[simp] theorem arriveBytes_host (bs : List Byte) (s : State) : (arriveBytes bs s).host = s.host := rfl
@[simp] theorem arriveBytes_exchange (bs : List Byte) (s : State) : (arriveBytes bs s).exchange = s.exchange := rfl

@[simp] theorem drainQueue_params (s : State) : (drainQueue s).params = s.params := rfl
@[simp] theorem drainQueue_codec (s : State) : (drainQueue s).codec = s.codec := rfl
@[simp] theorem drainQueue_link (s : State) : (drainQueue s).link = { s.link with rxq := [] } := rfl
@[simp] theorem drainQueue_host (s : State) : (drainQueue s).host = s.host := rfl
@[simp] theorem drainQueue_exchange (s : State) : (drainQueue s).exchange = exchangeAfterDrain s.exchange := rfl

@[simp] theorem resetCodec_params (s : State) : (resetCodec s).params = s.params := rfl
@[simp] theorem resetCodec_codec (s : State) : (resetCodec s).codec = Codec.reset := rfl
@[simp] theorem resetCodec_link (s : State) : (resetCodec s).link = s.link := rfl
@[simp] theorem resetCodec_host (s : State) : (resetCodec s).host = s.host := rfl
@[simp] theorem resetCodec_exchange (s : State) : (resetCodec s).exchange = exchangeAfterReset s.exchange := rfl

@[simp] theorem afterReceive_params (n : Nat) (s : State) : (afterReceive n s).params = s.params := rfl
@[simp] theorem afterReceive_link (n : Nat) (s : State) : (afterReceive n s).link = linkAfterRead n s.link := rfl
@[simp] theorem afterReceive_host (n : Nat) (s : State) : (afterReceive n s).host = s.host := rfl
@[simp] theorem afterReceive_exchange (n : Nat) (s : State) :
    (afterReceive n s).exchange = exchangeAfterRead ((delivered n s.link).length == n) s.exchange := rfl
@[simp] theorem afterReceive_codec_ctrl (n : Nat) (s : State) :
    (afterReceive n s).codec.ctrl = s.codec.ctrl := rfl
@[simp] theorem afterReceive_codec_status (n : Nat) (s : State) :
    (afterReceive n s).codec.status = s.codec.status := rfl
@[simp] theorem afterReceive_codec_opc (n : Nat) (s : State) :
    (afterReceive n s).codec.opc = s.codec.opc := rfl
@[simp] theorem afterReceive_codec_dev (n : Nat) (s : State) :
    (afterReceive n s).codec.dev = s.codec.dev := rfl
@[simp] theorem afterReceive_codec_elen (n : Nat) (s : State) :
    (afterReceive n s).codec.elen = s.codec.elen := rfl
@[simp] theorem afterReceive_codec_ilen (n : Nat) (s : State) :
    (afterReceive n s).codec.ilen = BitVec.ofNat 16 (delivered n s.link).length := rfl
@[simp] theorem afterReceive_codec_olen (n : Nat) (s : State) :
    (afterReceive n s).codec.olen = s.codec.olen := rfl
@[simp] theorem afterReceive_codec_val (n : Nat) (s : State) :
    (afterReceive n s).codec.val = s.codec.val := rfl
@[simp] theorem afterReceive_codec_acc (n : Nat) (s : State) :
    (afterReceive n s).codec.acc = s.codec.acc := rfl
@[simp] theorem afterReceive_codec_ibuf (n : Nat) (s : State) :
    (afterReceive n s).codec.ibuf = memWriteBytes s.codec.ibuf 0 (delivered n s.link) := rfl
@[simp] theorem afterReceive_codec_obuf (n : Nat) (s : State) :
    (afterReceive n s).codec.obuf = s.codec.obuf := rfl

@[simp] theorem withFetchWord_params (s : State) (nbits w : Nat) : (s.withFetchWord nbits w).params = s.params := rfl
@[simp] theorem withFetchWord_codec (s : State) (nbits w : Nat) : (s.withFetchWord nbits w).codec = s.codec := rfl
@[simp] theorem withFetchWord_link (s : State) (nbits w : Nat) : (s.withFetchWord nbits w).link = s.link := rfl
@[simp] theorem withFetchWord_exchange (s : State) (nbits w : Nat) : (s.withFetchWord nbits w).exchange = s.exchange := rfl
@[simp] theorem withFetchWord_readback (s : State) (nbits w : Nat) :
    (s.withFetchWord nbits w).host.readback = s.host.readback := rfl
@[simp] theorem withFetchWord_script (s : State) (nbits w : Nat) :
    (s.withFetchWord nbits w).host.script =
      eventOfWords (tableWords nbits w).1 (tableWords nbits w).2 :: s.host.script := rfl

@[simp] theorem andThen_next (s : State) (k : State → Result) : andThen (.next s) k = k s := rfl
@[simp] theorem andThen_fault (f : Fault) (k : State → Result) : andThen (.fault f) k = .fault f := rfl
@[simp] theorem andThen_refused (f : Refusal) (k : State → Result) : andThen (.refused f) k = .refused f := rfl

end Sys2Proof.Machine
end

