-- ==== Sys2Proof/Laws/Ops.lean ====
section
/-! SUPPORT. One lemma for each shared operation, saying once everything it can do. -/

namespace Sys2Proof.Machine

/-! ### A codec operation -/

/-- The three ways an operation word other than `NOP` can go. -/
theorem operate_next_iff (w : Byte) (body : Config → List Byte → Codec → Codec) (s t : State) :
    operate w body s = .next t ↔
      (s.params.inCap < s.codec.ilen.toNat ∧ t = endOp w (raiseCode .badOperand (beginOp w s.codec)) s) ∨
      ∃ input, inputIs s input ∧ t = endOp w (body s.params input (beginOp w s.codec)) s := by
  simp only [operate, inputIs]
  by_cases h : s.params.inCap < s.codec.ilen.toNat
  · rw [if_pos h]; simp [h, Nat.not_le.2 h, eq_comm]
  · rw [if_neg h]
    cases memReadBytes s.codec.ibuf 0 s.codec.ilen.toNat <;> simp [h, Nat.not_lt.1 h, eq_comm]

theorem operate_guard (w : Byte) (body : Config → List Byte → Codec → Codec) (s : State)
    (h : s.params.inCap < s.codec.ilen.toNat) :
    operate w body s = .next (endOp w (raiseCode .badOperand (beginOp w s.codec)) s) :=
  (operate_next_iff w body s _).2 (.inl ⟨h, rfl⟩)

theorem operate_input (w : Byte) (body : Config → List Byte → Codec → Codec) (s : State) (input : List Byte)
    (h : inputIs s input) :
    operate w body s = .next (endOp w (body s.params input (beginOp w s.codec)) s) :=
  (operate_next_iff w body s _).2 (.inr ⟨input, h, rfl⟩)

theorem operate_unwritten (w : Byte) (body : Config → List Byte → Codec → Codec) (s : State)
    (hc : s.codec.ilen.toNat ≤ s.params.inCap) (h : memReadBytes s.codec.ibuf 0 s.codec.ilen.toNat = none) :
    operate w body s = .fault .unwrittenInput := by
  simp [operate, Nat.not_lt.2 hc, h]

/-- The host's operand is one sequence of bytes, and `ILEN` counts it. -/
theorem inputIs_length {s : State} {bytes : List Byte} (h : inputIs s bytes) :
    s.codec.ilen.toNat = bytes.length :=
  ((memReadBytes_eq_some_iff _ _ _ _).1 h.2).1.symm

theorem inputIs_unique {s : State} {a b : List Byte} (ha : inputIs s a) (hb : inputIs s b) : a = b := by
  have := ha.2.symm.trans hb.2
  simpa using this

/-- With `ILEN = 0` the operand is empty, whatever `IBUF` holds. -/
theorem inputIs_nil {s : State} (h : s.codec.ilen = 0) : inputIs s [] := by
  simp [inputIs, h, memReadBytes]

/-! ### Output -/

theorem outputIs_of_emit (t : State) (out : List Byte) (hl : out.length ≤ obufCap)
    (ho : t.codec.olen = BitVec.ofNat 16 out.length) (hb : t.codec.obuf = memWriteBytes [] 0 (out.take obufCap)) :
    outputIs t out := by
  have hcap : obufCap = 259 := rfl
  refine ⟨?_, fun k => ?_⟩
  · rw [ho, BitVec.toNat_ofNat, Nat.mod_eq_of_lt (by omega)]
  · rw [hb, List.take_of_length_le hl, memRead_memWriteBytes_zero]
    split
    · rfl
    · rw [memRead, List.getElem?_eq_none (by omega)]

theorem outputIs_nil_of (t : State) (ho : t.codec.olen = 0) (hb : t.codec.obuf = []) : outputIs t [] := by
  simp [outputIs, ho, hb, memRead]

/-- The output is one sequence of bytes, and reading it back gives it. -/
theorem outputIs_read {t : State} {out : List Byte} (h : outputIs t out) :
    memReadBytes t.codec.obuf 0 t.codec.olen.toNat = some out := by
  refine (memReadBytes_eq_some_iff _ _ _ _).2 ⟨h.1.symm, fun k _ => ?_⟩
  rw [Nat.zero_add]
  exact h.2 k

theorem outputIs_unique {t : State} {a b : List Byte} (ha : outputIs t a) (hb : outputIs t b) : a = b := by
  have := (outputIs_read ha).symm.trans (outputIs_read hb)
  simpa using this

/-! ### What an operation's own rule can do -/

/-- How long an output can be: `OBUF` holds it, or a decoding operation exposes it (R31, R137; log entry 12). -/
def outputFits (c : Codec) (n : Nat) (out : List Byte) : Prop :=
  out.length ≤ obufCap ∨ c.ctrl ∈ decodingWords ∧ out.length + 4 ≤ n

/-- From the cleared state `c`, on an operand of `n` bytes, the rule of an operation ends in one error exit, in which
only `ACC` may have been written before, or in success with an output, which `OBUF` can hold but for a decoding
operation's: that may expose all of the reply but four bytes. -/
def ruleOutcome (c r : Codec) (n : Nat) : Prop :=
  (∃ code acc, code ≠ .ok ∧ r = raiseCode code { c with acc := acc }) ∨
  ∃ out acc val efail, outputFits c n out ∧ (efail = true → opselOf c.ctrl = 7) ∧
    r = { succeed out acc c with val := val, status := statusByte .ok efail }

theorem ruleOutcome_raise (c : Codec) (n : Nat) (code : ResultCode) (h : code ≠ .ok) :
    ruleOutcome c (raiseCode code c) n :=
  .inl ⟨code, c.acc, h, rfl⟩

theorem ruleOutcome_succeed (c : Codec) (n : Nat) (out : List Byte) (acc : Byte) (h : outputFits c n out) :
    ruleOutcome c (succeed out acc c) n :=
  .inr ⟨out, acc, c.val, false, h, by simp, rfl⟩

theorem buildFrame_outcome (p : List Byte) (c : Codec) (n : Nat) : ruleOutcome c (buildFrame p c) n := by
  rw [buildFrame]
  split
  · exact ruleOutcome_raise c n _ (by simp)
  · refine ruleOutcome_succeed c n _ _ ?_
    left
    simp only [sealFrame_length, frameBody_length, obufCap]
    omega

theorem encodePathOnly_outcome (p : Config) (path : List Byte) (c : Codec) (n : Nat) :
    ruleOutcome c (encodePathOnly p path c) n := by
  rw [encodePathOnly]
  split
  · rename_i code h
    refine ruleOutcome_raise c n code ?_
    rintro rfl
    cases path with
    | nil => simp at h
    | cons first others => rw [encodePath_cons] at h; split at h <;> simp at h
  · rename_i out h
    have := encodePath_ok_length _ _ _ _ h
    exact ruleOutcome_succeed c n _ _ (.inl (by simp only [obufCap]; omega))

theorem buildPathFrame_outcome (p : Config) (path : List Byte) (c : Codec) (n : Nat) :
    ruleOutcome c (buildPathFrame p path c) n := by
  rw [buildPathFrame]
  split
  · rename_i code h
    refine ruleOutcome_raise c n code ?_
    rintro rfl
    cases path with
    | nil => simp at h
    | cons first others => rw [encodePath_cons] at h; split at h <;> simp at h
  · rename_i out h
    have := encodePath_ok_length _ _ _ _ h
    refine ruleOutcome_succeed c n _ _ ?_
    left
    simp only [sealFrame_length, List.length_append, List.length_cons, List.length_nil, obufCap]
    omega

theorem buildCombination_outcome (e : List Byte) (w : Byte) (c : Codec) (n : Nat) :
    ruleOutcome (beginOp w c) (buildCombination e (beginOp w c)) n := by
  rw [buildCombination]
  split
  · exact .inr ⟨[], 0, 0, false, .inl (by simp), by simp, rfl⟩
  · split
    · exact ruleOutcome_raise _ n _ (by simp)
    · split
      · exact ruleOutcome_raise _ n _ (by simp)
      · refine ruleOutcome_succeed _ n _ _ ?_
        left
        simp only [List.length_append, List.length_cons, List.length_nil, obufCap]
        omega

/-- `decodeThen` ends in the error exit of the failing test, or goes on to the extraction. -/
theorem decodeThen_eq (extract : List Byte → Codec → Codec) (raw : List Byte) (c : Codec) :
    decodeThen extract raw c =
      if (checkReply c.elen.toNat raw).code = .ok then
        extract (checkReply c.elen.toNat raw).payload
          (succeed (checkReply c.elen.toNat raw).payload (checkReply c.elen.toNat raw).acc c)
      else raiseCode (checkReply c.elen.toNat raw).code { c with acc := (checkReply c.elen.toNat raw).acc } := by
  rw [decodeThen]
  cases h : (checkReply c.elen.toNat raw).code <;> simp

theorem decodeThen_outcome (extract : List Byte → Codec → Codec) (raw : List Byte) (c : Codec)
    (hw : c.ctrl ∈ decodingWords)
    (hx : ∀ p acc, outputFits c raw.length p → ruleOutcome c (extract p (succeed p acc c)) raw.length) :
    ruleOutcome c (decodeThen extract raw c) raw.length := by
  rw [decodeThen_eq]
  split
  · rename_i h
    refine hx _ _ ?_
    obtain ⟨h0, hl, hs⟩ := (checkReply_code_ok_iff _ _).1 h
    rw [checkReply_ok _ _ h0 hl hs]
    by_cases h4 : 4 ≤ raw.length
    · exact .inr ⟨hw, by simp; omega⟩
    · exact .inl (by simp [obufCap]; omega)
  · exact .inl ⟨_, _, ‹_›, rfl⟩

theorem decodeRaw_outcome (raw : List Byte) (c : Codec) (hw : c.ctrl ∈ decodingWords) :
    ruleOutcome c (decodeRaw raw c) raw.length :=
  decodeThen_outcome _ raw c hw fun p acc hp => ruleOutcome_succeed c _ p acc hp

theorem decodeU16_outcome (raw : List Byte) (c : Codec) (hw : c.ctrl ∈ decodingWords) :
    ruleOutcome c (decodeU16 raw c) raw.length := by
  refine decodeThen_outcome _ raw c hw fun p acc hp => ?_
  rw [extractU16.eq_def]
  split
  · exact .inr ⟨_, acc, _, false, hp, by simp, rfl⟩
  · exact .inl ⟨.shortRead, acc, by simp, rfl⟩

theorem decodeEnum_outcome (kind : EnumKind) (p : Config) (raw : List Byte) (c : Codec)
    (hw : c.ctrl ∈ decodingWords) (h7 : opselOf c.ctrl = 7) : ruleOutcome c (decodeEnum kind p raw c) raw.length := by
  refine decodeThen_outcome _ raw c hw fun q acc hq => ?_
  rw [extractEnum.eq_def]
  split
  · exact .inr ⟨_, acc, _, _, hq, fun _ => h7, rfl⟩
  · exact .inl ⟨.shortRead, acc, by simp, rfl⟩

/-- Every operation but `NOP` is `operate` of its own word and of a rule that has one of the two outcomes. -/
theorem exec_operation (i : Instr) (h : isOperation i) (hn : i ≠ .nop) :
    ∃ body : Config → List Byte → Codec → Codec, (∀ s, exec i s = operate (wordOf i) body s) ∧
      ∀ p input c, ruleOutcome (beginOp (wordOf i) c) (body p input (beginOp (wordOf i) c)) input.length := by
  cases i with
  | build => exact ⟨fun _ input c => buildFrame input c, fun _ => rfl, fun _ _ _ => buildFrame_outcome _ _ _⟩
  | encpath => exact ⟨encodePathOnly, fun _ => rfl, fun _ _ _ => encodePathOnly_outcome _ _ _ _⟩
  | bpath => exact ⟨buildPathFrame, fun _ => rfl, fun _ _ _ => buildPathFrame_outcome _ _ _ _⟩
  | bcomb =>
    exact ⟨fun _ input c => buildCombination input c, fun _ => rfl, fun _ _ _ => buildCombination_outcome _ _ _ _⟩
  | decode => exact ⟨fun _ input c => decodeRaw input c, fun _ => rfl, fun _ _ _ => decodeRaw_outcome _ _ (by rw [beginOp_ctrl]; decide)⟩
  | decu16 => exact ⟨fun _ input c => decodeU16 input c, fun _ => rfl, fun _ _ _ => decodeU16_outcome _ _ (by rw [beginOp_ctrl]; decide)⟩
  | decenumPlayState =>
    exact ⟨decodeEnum .playState, fun _ => rfl, fun _ _ _ => decodeEnum_outcome _ _ _ _ (by rw [beginOp_ctrl]; decide)
      (by rw [beginOp_ctrl]; decide)⟩
  | decenumDevice =>
    exact ⟨decodeEnum .device, fun _ => rfl, fun _ _ _ => decodeEnum_outcome _ _ _ _ (by rw [beginOp_ctrl]; decide)
      (by rw [beginOp_ctrl]; decide)⟩
  | decenumEqualizer =>
    exact ⟨decodeEnum .equalizer, fun _ => rfl, fun _ _ _ => decodeEnum_outcome _ _ _ _ (by rw [beginOp_ctrl]; decide)
      (by rw [beginOp_ctrl]; decide)⟩
  | decenumCycleMode =>
    exact ⟨decodeEnum .cycleMode, fun _ => rfl, fun _ _ _ => decodeEnum_outcome _ _ _ _ (by rw [beginOp_ctrl]; decide)
      (by rw [beginOp_ctrl]; decide)⟩
  | decenumPreviousDirPolicy =>
    exact ⟨decodeEnum .previousDirPolicy, fun _ => rfl, fun _ _ _ => decodeEnum_outcome _ _ _ _ (by rw [beginOp_ctrl]; decide)
      (by rw [beginOp_ctrl]; decide)⟩
  | nop => exact absurd rfl hn
  | _ => simp [isOperation, portOf] at h

/-! ### The link -/

/-- At most the bytes asked for are delivered, from the front of the queue. -/
theorem delivered_length_le (n : Nat) (l : Link) : (delivered n l).length ≤ n := by
  simp only [delivered, actualCount, List.length_take]
  omega

theorem delivered_append_rest (n : Nat) (l : Link) :
    delivered n l ++ (linkAfterRead n l).rxq = l.rxq ++ (nextAnswer l).arrived := by
  simp [delivered, queueAtRead]

/-- `TX` in each of its cases. -/
theorem transmit_ready (s : State) (frame : List Byte) (he : errOf s.codec.status = 0) (ho : outputIs s frame)
    (hne : frame ≠ []) (ha : s.exchange = .closed) :
    transmit s = .next { s with
      link := { s.link with wire := s.link.wire ++ frame }
      exchange := exchangeAfterSend frame } := by
  have hol : s.codec.olen ≠ 0 := by
    intro hz
    have := ho.1
    rw [hz] at this
    exact hne (List.eq_nil_of_length_eq_zero (by simpa using this.symm))
  rw [transmit, if_neg (by simp only [he, not_or]; exact ⟨not_not.2 rfl, hol⟩), if_neg (by simp [ha]), outputIs_read ho]

theorem transmit_open (s : State) (he : errOf s.codec.status = 0) (hol : s.codec.olen ≠ 0)
    (ha : s.exchange ≠ .closed) : transmit s = .refused .exchangeOpen := by
  rw [transmit, if_neg (by simp only [he, not_or]; exact ⟨not_not.2 rfl, hol⟩), if_pos ha]

theorem transmit_next (s t : State) (h : transmit s = .next t) :
    errOf s.codec.status = 0 ∧ s.codec.olen ≠ 0 ∧ s.exchange = .closed ∧
      ∃ frame, memReadBytes s.codec.obuf 0 s.codec.olen.toNat = some frame ∧
        t = { s with
          link := { s.link with wire := s.link.wire ++ frame }
          exchange := exchangeAfterSend frame } := by
  rw [transmit] at h
  by_cases h1 : errOf s.codec.status ≠ 0 ∨ s.codec.olen = 0
  · rw [if_pos h1] at h; simp at h
  rw [if_neg h1] at h
  by_cases h2 : s.exchange ≠ .closed
  · rw [if_pos h2] at h; simp at h
  rw [if_neg h2] at h
  cases h3 : memReadBytes s.codec.obuf 0 s.codec.olen.toNat with
  | none => simp [h3] at h
  | some frame =>
    simp only [h3, Host.Outcome.next.injEq] at h
    simp only [not_or, not_not] at h1
    exact ⟨h1.1, h1.2, by simpa using h2, frame, rfl, h.symm⟩

/-! ### Host reads -/

/-- All that a host read of `OBUF` can do. -/
theorem readOutput_next {i : Nat} {s t : State} (h : readOutput i s = .next t) :
    i < s.codec.olen.toNat ∧ ∃ b, memRead s.codec.obuf i = some b ∧ t = giveHost (zext16 b) s := by
  rw [readOutput] at h
  split at h
  · simp at h
  split at h
  · simp at h
  cases hb : memRead s.codec.obuf i with
  | none => simp [hb] at h
  | some b =>
    simp only [hb, Host.Outcome.next.injEq] at h
    exact ⟨Nat.not_le.1 ‹_›, b, rfl, h.symm⟩

/-- All that a host read of `IBUF` can do. -/
theorem readInput_next {i : Nat} {s t : State} (h : readInput i s = .next t) :
    i < s.params.inCap ∧ ∃ b, memRead s.codec.ibuf i = some b ∧ t = giveHost (zext16 b) s := by
  rw [readInput] at h
  split at h
  · simp at h
  cases hb : memRead s.codec.ibuf i with
  | none => simp [hb] at h
  | some b =>
    simp only [hb, Host.Outcome.next.injEq] at h
    exact ⟨Nat.not_le.1 ‹_›, b, rfl, h.symm⟩

/-! ### The exchange -/

@[simp] theorem exchangeAfterOp_closed (w : Byte) : exchangeAfterOp w .closed = .closed := by
  unfold exchangeAfterOp; split <;> rfl

/-- Only a decoding operation touches the exchange. -/
theorem exchangeAfterOp_other {w : Byte} (h : decodingWords.contains w = false) (e : Exchange) :
    exchangeAfterOp w e = e := by
  unfold exchangeAfterOp; rw [h]; rfl

/-- An exchange whose reply an `RX` has read of ends with the decoding operation. -/
theorem exchangeAfterOp_read {w : Byte} (h : decodingWords.contains w = true) (all : Bool) (e : Exchange) :
    exchangeAfterOp w (exchangeAfterRead all e) = .closed := by
  unfold exchangeAfterOp; rw [h]; cases e <;> cases all <;> rfl

@[simp] theorem exchangeAfterRead_ne_closed (all : Bool) (e : Exchange) :
    exchangeAfterRead all e = .closed ↔ e = .closed := by
  cases e <;> cases all <;> simp [exchangeAfterRead]

/-! ### Loading an operand -/

theorem loadInput_fits (bytes : List Byte) (s : State) (h : bytes.length ≤ s.params.inCap) :
    loadInput bytes s = .next { s with codec := { s.codec with
      ibuf := memWriteBytes s.codec.ibuf 0 bytes
      ilen := BitVec.ofNat 16 bytes.length } } := by
  simp [loadInput, h]

theorem loadInput_overflows (bytes : List Byte) (s : State) (h : s.params.inCap < bytes.length) :
    loadInput bytes s = .fault .noInputIndex := by
  simp [loadInput, Nat.not_le.2 h]

/-- A loaded operand is the input of the next operation. -/
theorem inputIs_loaded (t : State) (m : Memory) (bytes : List Byte) (hb : t.codec.ibuf = memWriteBytes m 0 bytes)
    (hl : t.codec.ilen = BitVec.ofNat 16 bytes.length) (hc : bytes.length ≤ t.params.inCap)
    (h16 : bytes.length ≤ 65535) : inputIs t bytes := by
  have : t.codec.ilen.toNat = bytes.length := by
    rw [hl, BitVec.toNat_ofNat, Nat.mod_eq_of_lt (by omega)]
  rw [inputIs, this, hb]
  exact ⟨hc, memReadBytes_memWriteBytes m bytes⟩

end Sys2Proof.Machine
end

