-- ==== Sys2Proof/Laws/Exec.lean ====
section
/-! SUPPORT. `exec` of each shape of instruction in terms of the shared operations, and how an operation's end state
meets `completes`. -/

namespace Sys2Proof.Machine

/-! ### Operations -/

theorem exec_build (s : State) : exec .build s = operate 0x01 (fun _ input c => buildFrame input c) s := rfl
theorem exec_encpath (s : State) : exec .encpath s = operate 0x02 encodePathOnly s := rfl
theorem exec_bpath (s : State) : exec .bpath s = operate 0x03 buildPathFrame s := rfl
theorem exec_bcomb (s : State) : exec .bcomb s = operate 0x04 (fun _ input c => buildCombination input c) s := rfl
theorem exec_decode (s : State) : exec .decode s = operate 0x05 (fun _ input c => decodeRaw input c) s := rfl
theorem exec_decu16 (s : State) : exec .decu16 s = operate 0x06 (fun _ input c => decodeU16 input c) s := rfl

theorem exec_decenum (kind : EnumKind) (s : State) :
    exec (decenumOf kind) s = operate (wordOf (decenumOf kind)) (decodeEnum kind) s := by
  cases kind <;> rfl

theorem opsel_decenum (kind : EnumKind) : (opselOf (wordOf (decenumOf kind)) == 7) = true := by
  cases kind <;> rfl

/-- An operation whose rule ends in the error exit. -/
theorem completes_of_raise (i : Instr) (s : State) (w : Byte) (code : ResultCode) (efail : Bool) (acc : Byte)
    (h : exec i s = .next (endOp w (raiseCode code { beginOp w s.codec with acc := acc }) s))
    (hw : wordOf i = w) (he : (opselOf w == 7) = efail) : completes i s code efail 0 acc [] := by
  subst hw
  refine ⟨_, h, rfl, outputIs_nil_of _ rfl rfl, ⟨?_, rfl, rfl⟩, ⟨rfl, rfl, rfl, rfl, fun _ => rfl, rfl, rfl, rfl⟩, rfl⟩
  simp [efailOnError, he]

/-- An operation whose rule succeeds with an output that fits `OBUF`. -/
theorem completes_of_succeed (i : Instr) (s : State) (w : Byte) (efail : Bool) (val : Half) (acc : Byte)
    (out : List Byte)
    (h : exec i s = .next (endOp w { succeed out acc (beginOp w s.codec) with
      val := val
      status := statusByte .ok efail } s))
    (hw : wordOf i = w) (hl : out.length ≤ obufCap) : completes i s .ok efail val acc out := by
  subst hw
  exact ⟨_, h, rfl, outputIs_of_emit _ _ hl rfl rfl, ⟨rfl, rfl, rfl⟩,
    ⟨rfl, rfl, rfl, rfl, fun _ => rfl, rfl, rfl, rfl⟩, rfl⟩

/-- What a decoding operation does on each outcome of the tests; on success its extraction is still to run. -/
theorem decoder_outcomes (i : Instr) (extract : Config → List Byte → Codec → Codec)
    (hx : ∀ s, exec i s = operate (wordOf i) (fun p raw c => decodeThen (extract p) raw c) s) (efail : Bool)
    (he : (opselOf (wordOf i) == 7) = efail) (s : State) :
    (s.params.inCap < s.codec.ilen.toNat → completes i s .badOperand efail 0 0 []) ∧
    ∀ raw, inputIs s raw →
      (s.codec.elen = 0 → completes i s .badOperand efail 0 0 []) ∧
      (raw.length < s.codec.elen.toNat → completes i s .shortRead efail 0 0 []) ∧
      (s.codec.elen ≠ 0 → s.codec.elen.toNat ≤ raw.length → raw.getLast? ≠ some (sum8 raw.dropLast) →
        completes i s .checksumMismatch efail 0 (sum8 raw.dropLast) []) ∧
      (s.codec.elen ≠ 0 → s.codec.elen.toNat ≤ raw.length → raw.getLast? = some (sum8 raw.dropLast) →
        exec i s = .next (endOp (wordOf i) (extract s.params (replyPayload raw)
          (succeed (replyPayload raw) (sum8 raw.dropLast) (beginOp (wordOf i) s.codec))) s)) := by
  have hne : s.codec.elen ≠ 0 → s.codec.elen.toNat ≠ 0 := fun h hc => h (BitVec.eq_of_toNat_eq (by simpa using hc))
  refine ⟨fun h => completes_of_raise _ s _ _ _ 0 ((hx s).trans <| operate_guard _ _ _ h) rfl he, fun raw hp => ?_⟩
  have hr := (hx s).trans <| operate_input _ _ _ _ hp
  refine ⟨fun h => ?_, fun h => ?_, fun h h2 h3 => ?_, fun h h2 h3 => ?_⟩
  · refine completes_of_raise _ s _ _ _ 0 (hr.trans ?_) rfl he
    simp [decodeThen_eq, h, checkReply_zero]
  · refine completes_of_raise _ s _ _ _ 0 (hr.trans ?_) rfl he
    simp [decodeThen_eq, checkReply_short s.codec.elen.toNat raw (by omega) h]
  · refine completes_of_raise _ s _ _ _ (sum8 raw.dropLast) (hr.trans ?_) rfl he
    simp [decodeThen_eq, checkReply_mismatch s.codec.elen.toNat raw (hne h) h2 h3]
  · refine hr.trans ?_
    simp [decodeThen_eq, checkReply_ok s.codec.elen.toNat raw (hne h) h2 h3]

/-! ### Driver-level commands -/

theorem exec_command (i : Instr) (s : State) (opc : Byte) (payload : List Byte)
    (h : commandOf i = some (opc, payload)) :
    exec i s = commandFrame opc payload s ∧ encode i = commandWords opc payload := by
  cases i <;> simp [commandOf] at h <;> (obtain ⟨rfl, rfl⟩ := h; exact ⟨rfl, rfl⟩)

theorem exec_pathCommand (i : Instr) (s : State) (opc dev : Byte) (path : List Byte)
    (h : pathCommandOf i = some (opc, dev, path)) : exec i s = pathFrame opc dev path s := by
  cases i <;> simp [pathCommandOf] at h <;> (obtain ⟨rfl, rfl, rfl⟩ := h; rfl)

/-- The second half of a query is `RX` and then the decoding operation. -/
theorem readReply_eq (n : Nat) (w : Byte) (body : Config → List Byte → Codec → Codec) (s : State) (hn : 1 ≤ n)
    (h16 : n ≤ 65535) :
    readReply n w body s =
      andThen (receive n { s with codec := { s.codec with elen := BitVec.ofNat 16 n } }) (operate w body) := by
  rw [readReply, receive]
  by_cases hc : n ≤ s.params.inCap
  · rw [if_pos hc, if_pos ⟨hn, hc⟩, andThen_next]
    have hd := delivered_length_le n s.link
    have hin : inputIs (afterReceive n { s with codec := { s.codec with elen := BitVec.ofNat 16 n } })
        (delivered n s.link) :=
      inputIs_loaded _ s.codec.ibuf _ rfl rfl (by show _ ≤ s.params.inCap; omega) (by omega)
    rw [operate_input _ _ _ _ hin]
  · rw [if_neg hc, if_neg (by tauto)]; rfl

/-- A loaded operand, with everything else as before. -/
theorem loadInput_next (bytes : List Byte) (s : State) (hc : bytes.length ≤ s.params.inCap)
    (h16 : bytes.length ≤ 65535) :
    ∃ v, loadInput bytes s = .next v ∧ inputIs v bytes ∧ v.codec.opc = s.codec.opc ∧ v.codec.dev = s.codec.dev ∧
      v.codec.elen = s.codec.elen ∧ v.codec.ibuf = memWriteBytes s.codec.ibuf 0 bytes ∧ v.params = s.params ∧
      v.link = s.link ∧ v.host = s.host ∧ v.exchange = s.exchange :=
  ⟨_, loadInput_fits _ _ hc, inputIs_loaded _ s.codec.ibuf bytes rfl rfl hc h16, rfl, rfl, rfl, rfl, rfl, rfl, rfl, rfl⟩

theorem inputLoaded_of (s t : State) (bytes : List Byte) (hb : t.codec.ibuf = memWriteBytes s.codec.ibuf 0 bytes)
    (hl : t.codec.ilen = BitVec.ofNat 16 bytes.length) (h16 : bytes.length ≤ 65535) : inputLoaded s t bytes := by
  refine ⟨?_, fun a => by rw [hb, memRead_memWriteBytes_zero]⟩
  rw [hl, BitVec.toNat_ofNat, Nat.mod_eq_of_lt (by omega)]

/-- An operation that completes on a loaded operand leaves it loaded. -/
theorem completes_loaded {i : Instr} {s v : State} {code : ResultCode} {efail : Bool} {val : Half} {acc : Byte}
    {out bytes : List Byte} (hv : inputIs v bytes) (hb : v.codec.ibuf = memWriteBytes s.codec.ibuf 0 bytes)
    (hc : completes i v code efail val acc out) :
    ∃ t, exec i v = .next t ∧ t.codec.ctrl = wordOf i ∧ inputLoaded s t bytes ∧ t.codec.opc = v.codec.opc ∧
      t.codec.dev = v.codec.dev ∧ t.codec.elen = v.codec.elen ∧ t.params = v.params ∧ t.link = v.link ∧
      t.host = v.host ∧ outputIs t out ∧ resultIs t code efail val acc ∧
      t.exchange = exchangeAfterOp (wordOf i) v.exchange := by
  obtain ⟨t, a, b, c, d, ⟨e1, e2, e3, e4, e5, e6, e7, e8⟩, e9⟩ := hc
  refine ⟨t, a, b, ⟨?_, fun k => ?_⟩, e1, e2, e3, e6, e7, e8, c, d, e9⟩
  · rw [e4]; exact inputIs_length hv
  · rw [e5, hb, memRead_memWriteBytes_zero]

end Sys2Proof.Machine
end

