-- ==== Sys2Proof/Laws/Events.lean ====
section
/-! SUPPORT. What each event of the script can do, and running several. -/

namespace Sys2Proof.Machine

/-! ### The write of the operation word -/

theorem writeCtrl_reserved (w : Byte) (s : State) (h : (decodeWord w).toOption = none) :
    runEvent (.op w) s = reservedWord w s := by
  cases hw : decodeWord w with
  | ok i => simp [hw, Except.toOption] at h
  | error e => simp [runEvent, writeCtrl, decode, hw, Except.map]

theorem writeCtrl_legal (w : Byte) (s : State) (i : Instr) (h : decodeWord w = .ok i) :
    runEvent (.op w) s = exec i s := by
  simp [runEvent, writeCtrl, decode, h, Except.map]

set_option maxRecDepth 100000 in
/-- A legal word is the word of the operation it decodes to. -/
theorem decodeWord_inverse : ∀ w : Byte,
    (decodeWord w).toOption.all (fun i => portOf i == .ctrl && encode i == [w]) = true := by
  decide

theorem wordOf_of_decodeWord (w : Byte) (i : Instr) (h : decodeWord w = .ok i) : isOperation i ∧ wordOf i = w := by
  have := decodeWord_inverse w
  simp only [h, Except.toOption, Option.all_some, Bool.and_eq_true, beq_iff_eq] at this
  exact ⟨this.1, by simp [wordOf, this.2]⟩

/-- A reserved word is no decoding word. -/
theorem decodingWords_legal : ∀ w ∈ decodingWords, (decodeWord w).toOption ≠ none := by decide

/-- Everything the write of an operation word can do when it answers a next state: only the codec and the exchange
change, and the codec is in one error exit, or it has succeeded with an output. -/
theorem writeCtrl_next (w : Byte) (s t : State) (h : runEvent (.op w) s = .next t) :
    t = endOp w t.codec s ∧
      ((∃ code acc, code ≠ .ok ∧ t.codec = raiseCode code { beginOp w s.codec with acc := acc }) ∨
        ∃ out acc val efail, outputFits (beginOp w s.codec) (min s.codec.ilen.toNat s.params.inCap) out ∧ (efail = true → opselOf w = 7) ∧
          t.codec = { succeed out acc (beginOp w s.codec) with val := val, status := statusByte .ok efail }) := by
  cases hw : decodeWord w with
  | error e =>
    rw [writeCtrl_reserved w s (by simp [hw, Except.toOption])] at h
    simp only [reservedWord, Host.Outcome.next.injEq] at h
    subst h
    have hd : decodingWords.contains w = false := by
      by_contra hc
      exact decodingWords_legal w (by simpa using hc) (by simp [hw, Except.toOption])
    exact ⟨by simp [endOp, exchangeAfterOp_other hd], .inl ⟨_, 0, by simp, rfl⟩⟩
  | ok i =>
    rw [writeCtrl_legal w s i hw] at h
    obtain ⟨hi, rfl⟩ := wordOf_of_decodeWord w i hw
    by_cases hn : i = .nop
    · subst hn
      simp only [exec, execNop, Host.Outcome.next.injEq] at h
      subst h
      exact ⟨rfl, .inr ⟨[], 0, 0, false, .inl (by simp), by simp, rfl⟩⟩
    · obtain ⟨body, hb, ho⟩ := exec_operation i hi hn
      rw [hb, operate_next_iff] at h
      rcases h with ⟨_, rfl⟩ | ⟨input, hin, rfl⟩
      · exact ⟨rfl, .inl ⟨_, 0, by simp, rfl⟩⟩
      · have := ho s.params input s.codec
        rw [← inputIs_length hin, ← Nat.min_eq_left hin.1] at this
        rcases this with ⟨code, acc, h1, h2⟩ | ⟨out, acc, val, efail, h1, h2, h3⟩
        · exact ⟨rfl, .inl ⟨code, acc, h1, h2⟩⟩
        · exact ⟨rfl, .inr ⟨out, acc, val, efail, h1, h2, h3⟩⟩

/-! ### Arrivals -/

/-- Bytes from the module are queued, whatever their number. -/
theorem runArrival_eq (bytes : List Byte) (s : State) : runArrival bytes s = .next (arriveBytes bytes s) := by
  simp only [runArrival, decode]
  match bytes with
  | [_, _, _, _, _] => rfl
  | [_, _, _, _, _, _] => rfl
  | [] | [_] | [_, _] | [_, _, _] | [_, _, _, _] => rfl
  | _ :: _ :: _ :: _ :: _ :: _ :: _ :: _ => rfl

/-! ### Several events -/

theorem andThen_assoc (r : Result) (k l : State → Result) :
    andThen (andThen r k) l = andThen r fun s => andThen (k s) l := by
  cases r <;> rfl

@[simp] theorem andThen_id (r : Result) : (andThen r fun s => .next s) = r := by
  cases r <;> rfl

theorem runEvents_append (a b : List Event) (s : State) :
    runEvents (a ++ b) s = andThen (runEvents a s) (runEvents b) := by
  induction a generalizing s with
  | nil => rfl
  | cons e a ih =>
    simp only [List.cons_append, runEvents]
    cases runEvent e s <;> simp [ih]

theorem runEvents_one (e : Event) : runEvents [e] = runEvent e := by
  funext s
  simp only [runEvents, andThen_id]

/-- `WB` after `WB` stores the sequence, or stops at the first index that does not exist. -/
theorem runEvents_storeBytes (i : Nat) (bytes : List Byte) (s : State) :
    runEvents (storeBytes i bytes) s =
      if i + bytes.length ≤ s.params.inCap ∨ bytes = [] then
        .next { s with codec := { s.codec with ibuf := memWriteBytes s.codec.ibuf i bytes } }
      else .fault .noInputIndex := by
  induction bytes generalizing i s with
  | nil => simp [storeBytes, runEvents, memWriteBytes]
  | cons b bytes ih =>
    simp only [storeBytes, runEvents, runEvent, writeInput]
    by_cases hc : i < s.params.inCap
    · rw [if_pos hc, andThen_next, ih]
      dsimp only
      by_cases h2 : i + 1 + bytes.length ≤ s.params.inCap
      · rw [if_pos (.inl h2), if_pos (.inl (by simp; omega))]; rfl
      · rw [if_neg, if_neg]
        · simp; omega
        · rintro (h | rfl)
          · exact h2 h
          · simp at h2; omega
    · rw [if_neg hc, if_neg (by simp; omega)]; rfl

/-- `LDI` is one operation. -/
theorem runEvents_scriptLdi (bytes : List Byte) (s : State) : runEvents (scriptLdi bytes) s = loadInput bytes s := by
  rw [scriptLdi, runEvents_append, runEvents_storeBytes, loadInput]
  by_cases hc : bytes.length ≤ s.params.inCap
  · rw [if_pos (.inl (by omega)), if_pos hc, andThen_next]; rfl
  · rw [if_neg, if_neg hc]; rfl
    rintro (h | rfl)
    · omega
    · simp at hc

end Sys2Proof.Machine
end

