-- ==== Sys2Proof/Laws/PerInstr.lean ====
section
/-! SUPPORT. Per instruction: the words of an instruction are those of its row of spec/opcode_table.json (R97). -/

namespace Sys2Proof.Laws.TableRow

/-- The row an instruction stands for: how many bits its pattern has, `match` and `mask`. -/
def row : Instr → Nat × Nat × Nat
  | .nop => (8, 0x00, 0xFF)
  | .build => (8, 0x01, 0xFF)
  | .encpath => (8, 0x02, 0xFF)
  | .bpath => (8, 0x03, 0xFF)
  | .bcomb => (8, 0x04, 0xFF)
  | .decode => (8, 0x05, 0xFF)
  | .decu16 => (8, 0x06, 0xFF)
  | .decenumPlayState => (8, 0x07, 0xFF)
  | .decenumDevice => (8, 0x17, 0xFF)
  | .decenumEqualizer => (8, 0x27, 0xFF)
  | .decenumCycleMode => (8, 0x37, 0xFF)
  | .decenumPreviousDirPolicy => (8, 0x47, 0xFF)
  | .queryPlayState => (16, 0xAA01, 0xFFFF)
  | .play => (16, 0xAA02, 0xFFFF)
  | .pause => (16, 0xAA03, 0xFFFF)
  | .stop => (16, 0xAA04, 0xFFFF)
  | .previous => (16, 0xAA05, 0xFFFF)
  | .next => (16, 0xAA06, 0xFFFF)
  | .playByNumber _ => (16, 0xAA07, 0xFFFF)
  | .playByPath .. => (16, 0xAA08, 0xFFFF)
  | .getDevice => (16, 0xAA0A, 0xFFFF)
  | .setDevice _ => (16, 0xAA0B, 0xFFFF)
  | .getSoundCount => (16, 0xAA0C, 0xFFFF)
  | .getPlayingSound => (16, 0xAA0D, 0xFFFF)
  | .previousDirE => (16, 0xAA0E, 0xFFFF)
  | .previousDirF => (16, 0xAA0F, 0xFFFF)
  | .stopInterlude => (16, 0xAA10, 0xFFFF)
  | .getFirstInDir => (16, 0xAA11, 0xFFFF)
  | .getSoundCountDir => (16, 0xAA12, 0xFFFF)
  | .setVolume _ => (16, 0xAA13, 0xFFFF)
  | .volumeUp => (16, 0xAA14, 0xFFFF)
  | .volumeDown => (16, 0xAA15, 0xFFFF)
  | .interludeByPath .. => (16, 0xAA17, 0xFFFF)
  | .setCycleMode _ => (16, 0xAA18, 0xFFFF)
  | .setCycleTimes _ => (16, 0xAA19, 0xFFFF)
  | .setEq _ => (16, 0xAA1A, 0xFFFF)
  | .combinationPlay _ => (16, 0xAA1B, 0xFFFF)
  | .endCombinationPlay => (16, 0xAA1C, 0xFFFF)
  | .select _ => (16, 0xAA1F, 0xFFFF)
  | .reply5 .. => (16, 0x0000, 0x0000)
  | .reply6 .. => (16, 0x0000, 0x0000)

/-- The first `bits` bits of the words, the first byte the more significant (R97). -/
def pattern (bits : Nat) (bytes : List Byte) : Nat :=
  if bits ≤ 8 then (bytes.headD 0).toNat else (bytes.headD 0).toNat * 256 + (bytes.tail.headD 0).toNat

/-- `w & mask = match` for the words of the instruction, and at least as many words as the pattern has. -/
def Statement (i : Instr) : Prop :=
  pattern (row i).1 (encode i) &&& (row i).2.2 = (row i).2.1 ∧ (row i).1 ≤ 8 * (encode i).length

theorem command (opc : Byte) (p : List Byte) (i : Instr) (he : encode i = commandWords opc p)
    (hr : row i = (16, 0xAA00 + opc.toNat, 0xFFFF)) : Statement i := by
  have := opc.isLt
  rw [Statement, hr, he]
  refine ⟨?_, by simp [commandWords]; omega⟩
  rw [show (0xFFFF : Nat) = 2 ^ 16 - 1 by rfl, Nat.and_two_pow_sub_one_eq_mod]
  simp [pattern, commandWords, header]
  omega

theorem pathCommand (opc dev : Byte) (p : List Byte) (i : Instr) (he : encode i = pathWords opc dev p)
    (hr : row i = (16, 0xAA00 + opc.toNat, 0xFFFF)) : Statement i := by
  have := opc.isLt
  rw [Statement, hr, he]
  refine ⟨?_, by simp [pathWords]; omega⟩
  rw [show (0xFFFF : Nat) = 2 ^ 16 - 1 by rfl, Nat.and_two_pow_sub_one_eq_mod]
  simp [pattern, pathWords, header]
  omega

theorem nop : Statement Instr.nop := by unfold Statement; decide
theorem build : Statement Instr.build := by unfold Statement; decide
theorem encpath : Statement Instr.encpath := by unfold Statement; decide
theorem bpath : Statement Instr.bpath := by unfold Statement; decide
theorem bcomb : Statement Instr.bcomb := by unfold Statement; decide
theorem decode : Statement Instr.decode := by unfold Statement; decide
theorem decu16 : Statement Instr.decu16 := by unfold Statement; decide
theorem decenumPlayState : Statement Instr.decenumPlayState := by unfold Statement; decide
theorem decenumDevice : Statement Instr.decenumDevice := by unfold Statement; decide
theorem decenumEqualizer : Statement Instr.decenumEqualizer := by unfold Statement; decide
theorem decenumCycleMode : Statement Instr.decenumCycleMode := by unfold Statement; decide
theorem decenumPreviousDirPolicy : Statement Instr.decenumPreviousDirPolicy := by unfold Statement; decide
theorem queryPlayState : Statement Instr.queryPlayState := by unfold Statement; decide
theorem play : Statement Instr.play := by unfold Statement; decide
theorem pause : Statement Instr.pause := by unfold Statement; decide
theorem stop : Statement Instr.stop := by unfold Statement; decide
theorem previous : Statement Instr.previous := by unfold Statement; decide
theorem next : Statement Instr.next := by unfold Statement; decide
theorem playByNumber (payload : List Byte) : Statement (Instr.playByNumber payload) := command _ _ _ rfl rfl
theorem playByPath (dev : Byte) (path : List Byte) : Statement (Instr.playByPath dev path) := pathCommand _ dev path _ rfl rfl
theorem getDevice : Statement Instr.getDevice := by unfold Statement; decide
theorem setDevice (payload : List Byte) : Statement (Instr.setDevice payload) := command _ _ _ rfl rfl
theorem getSoundCount : Statement Instr.getSoundCount := by unfold Statement; decide
theorem getPlayingSound : Statement Instr.getPlayingSound := by unfold Statement; decide
theorem previousDirE : Statement Instr.previousDirE := by unfold Statement; decide
theorem previousDirF : Statement Instr.previousDirF := by unfold Statement; decide
theorem stopInterlude : Statement Instr.stopInterlude := by unfold Statement; decide
theorem getFirstInDir : Statement Instr.getFirstInDir := by unfold Statement; decide
theorem getSoundCountDir : Statement Instr.getSoundCountDir := by unfold Statement; decide
theorem setVolume (payload : List Byte) : Statement (Instr.setVolume payload) := command _ _ _ rfl rfl
theorem volumeUp : Statement Instr.volumeUp := by unfold Statement; decide
theorem volumeDown : Statement Instr.volumeDown := by unfold Statement; decide
theorem interludeByPath (dev : Byte) (path : List Byte) : Statement (Instr.interludeByPath dev path) := pathCommand _ dev path _ rfl rfl
theorem setCycleMode (payload : List Byte) : Statement (Instr.setCycleMode payload) := command _ _ _ rfl rfl
theorem setCycleTimes (payload : List Byte) : Statement (Instr.setCycleTimes payload) := command _ _ _ rfl rfl
theorem setEq (payload : List Byte) : Statement (Instr.setEq payload) := command _ _ _ rfl rfl
theorem combinationPlay (entries : List (Byte × Byte)) : Statement (Instr.combinationPlay entries) := command _ _ _ rfl rfl
theorem endCombinationPlay : Statement Instr.endCombinationPlay := by unfold Statement; decide
theorem select (payload : List Byte) : Statement (Instr.select payload) := command _ _ _ rfl rfl
theorem reply5 (b0 b1 b2 status ck : Byte) : Statement (Instr.reply5 b0 b1 b2 status ck) := ⟨by simp [row, pattern], by simp [row, encode]⟩
theorem reply6 (b0 b1 b2 hi lo ck : Byte) : Statement (Instr.reply6 b0 b1 b2 hi lo ck) := ⟨by simp [row, pattern], by simp [row, encode]⟩

end Sys2Proof.Laws.TableRow
end

