-- ==== Sys2Proof/Tests/Slice0.lean ====
section
/-! SUPPORT. Tests: ill-formed instructions refused, every constructor's words, single steps with the values of
spec/95_test_vectors.md, what the interface's fetch runs, and for every obligation with hypotheses a witness that meets
them. -/

namespace Sys2Proof.Tests

open Sys2Proof.Machine

/-- The same thing `n` times. -/
def fill {α : Type} (n : Nat) (a : α) : List α := List.replicate n a

@[simp] theorem fill_length {α : Type} (n : Nat) (a : α) : (fill n a).length = n := by simp [fill]

theorem fill_count (n : Nat) (a b : Byte) : (fill n a).count b = if a = b then n else 0 := by
  simp [fill, List.count_replicate]

/-! ### WellFormed smoke -/

theorem test_payload_256_refused : (Instr.select (fill 256 0)).wellFormed = false := by
  simp only [Instr.wellFormed, Instr.operandBytes, fill_length]; decide
theorem test_payload_255_accepted : (Instr.select (fill 255 0)).wellFormed = true := by
  simp only [Instr.wellFormed, Instr.operandBytes, fill_length]; decide
theorem test_path_256_refused : (Instr.playByPath 1 (fill 256 0x61)).wellFormed = false := by
  simp only [Instr.wellFormed, Instr.operandBytes, fill_length]; decide
theorem test_path_255_accepted : (Instr.interludeByPath 1 (fill 255 0x61)).wellFormed = true := by
  simp only [Instr.wellFormed, Instr.operandBytes, fill_length]; decide
theorem test_entries_128_refused : (Instr.combinationPlay (fill 128 (0x30, 0x31))).wellFormed = false := by
  simp only [Instr.wellFormed, Instr.operandBytes, fill_length]; decide
theorem test_entries_127_accepted : (Instr.combinationPlay (fill 127 (0x30, 0x31))).wellFormed = true := by
  simp only [Instr.wellFormed, Instr.operandBytes, fill_length]; decide
theorem test_refused_payloads :
    [Instr.playByNumber, .setDevice, .setVolume, .setCycleMode, .setCycleTimes, .setEq, .select].all
      (fun mk => !(mk (fill 256 0)).wellFormed) = true := by
  simp only [Instr.wellFormed, Instr.operandBytes, fill_length, List.all_cons]; decide

/-! ### Decoding: words written out from R80 to R83 (bit 7, `KIND`, `OPSEL`), R85, R87, R89, R92 and R90 -/

theorem test_decode_nop : decode .ctrl [0b0_000_0000] = .ok (.nop, []) := rfl
theorem test_decode_build : decode .ctrl [0b0_000_0001] = .ok (.build, []) := rfl
theorem test_decode_encpath : decode .ctrl [0b0_000_0010] = .ok (.encpath, []) := rfl
theorem test_decode_bpath : decode .ctrl [0b0_000_0011] = .ok (.bpath, []) := rfl
theorem test_decode_bcomb : decode .ctrl [0b0_000_0100] = .ok (.bcomb, []) := rfl
theorem test_decode_decode : decode .ctrl [0b0_000_0101] = .ok (.decode, []) := rfl
theorem test_decode_decu16 : decode .ctrl [0b0_000_0110] = .ok (.decu16, []) := rfl
theorem test_decode_decenum_playState : decode .ctrl [0b0_000_0111] = .ok (.decenumPlayState, []) := rfl
theorem test_decode_decenum_device : decode .ctrl [0b0_001_0111] = .ok (.decenumDevice, []) := rfl
theorem test_decode_decenum_equalizer : decode .ctrl [0b0_010_0111] = .ok (.decenumEqualizer, []) := rfl
theorem test_decode_decenum_cycleMode : decode .ctrl [0b0_011_0111] = .ok (.decenumCycleMode, []) := rfl
theorem test_decode_decenum_previousDirPolicy :
    decode .ctrl [0b0_100_0111] = .ok (.decenumPreviousDirPolicy, []) := rfl
theorem test_decode_reserved :
    decode .ctrl [0b1_000_0001] = .error .reservedBit7 ∧ decode .ctrl [0b0_000_1000] = .error .reservedOpsel ∧
    decode .ctrl [0b0_001_0001] = .error .kindWithoutDecenum ∧ decode .ctrl [0b0_101_0111] = .error .reservedKind ∧
    decode .ctrl [] = .error .truncated := ⟨rfl, rfl, rfl, rfl, rfl⟩

theorem test_decode_queryPlayState : decode .driver [0xAA, 0x01, 0x00] = .ok (.queryPlayState, []) := rfl
theorem test_decode_play : decode .driver [0xAA, 0x02, 0x00] = .ok (.play, []) := rfl
theorem test_decode_pause : decode .driver [0xAA, 0x03, 0x00] = .ok (.pause, []) := rfl
theorem test_decode_stop : decode .driver [0xAA, 0x04, 0x00] = .ok (.stop, []) := rfl
theorem test_decode_previous : decode .driver [0xAA, 0x05, 0x00] = .ok (.previous, []) := rfl
theorem test_decode_next : decode .driver [0xAA, 0x06, 0x00] = .ok (.next, []) := rfl
theorem test_decode_playByNumber :
    decode .driver [0xAA, 0x07, 0x02, 0x00, 0x01] = .ok (.playByNumber [0x00, 0x01], []) := rfl
theorem test_decode_playByPath :
    decode .driver [0xAA, 0x08, 0x03, 0x01, 0x2F, 0x61, 0x2E] = .ok (.playByPath 0x01 [0x2F, 0x61, 0x2E], []) := rfl
theorem test_decode_getDevice : decode .driver [0xAA, 0x0A, 0x00] = .ok (.getDevice, []) := rfl
theorem test_decode_setDevice : decode .driver [0xAA, 0x0B, 0x01, 0x01] = .ok (.setDevice [0x01], []) := rfl
theorem test_decode_getSoundCount : decode .driver [0xAA, 0x0C, 0x00] = .ok (.getSoundCount, []) := rfl
theorem test_decode_getPlayingSound : decode .driver [0xAA, 0x0D, 0x00] = .ok (.getPlayingSound, []) := rfl
theorem test_decode_previousDirE : decode .driver [0xAA, 0x0E, 0x00] = .ok (.previousDirE, []) := rfl
theorem test_decode_previousDirF : decode .driver [0xAA, 0x0F, 0x00] = .ok (.previousDirF, []) := rfl
theorem test_decode_stopInterlude : decode .driver [0xAA, 0x10, 0x00] = .ok (.stopInterlude, []) := rfl
theorem test_decode_getFirstInDir : decode .driver [0xAA, 0x11, 0x00] = .ok (.getFirstInDir, []) := rfl
theorem test_decode_getSoundCountDir : decode .driver [0xAA, 0x12, 0x00] = .ok (.getSoundCountDir, []) := rfl
theorem test_decode_setVolume :
    decode .driver [0xAA, 0x13, 0x01, 0x14, 0xD2] = .ok (.setVolume [0x14], [0xD2]) := rfl
theorem test_decode_volumeUp : decode .driver [0xAA, 0x14, 0x00] = .ok (.volumeUp, []) := rfl
theorem test_decode_volumeDown : decode .driver [0xAA, 0x15, 0x00] = .ok (.volumeDown, []) := rfl
theorem test_decode_interludeByPath :
    decode .driver [0xAA, 0x17, 0x01, 0x02, 0x61] = .ok (.interludeByPath 0x02 [0x61], []) := rfl
theorem test_decode_setCycleMode : decode .driver [0xAA, 0x18, 0x01, 0x02] = .ok (.setCycleMode [0x02], []) := rfl
theorem test_decode_setCycleTimes :
    decode .driver [0xAA, 0x19, 0x02, 0x00, 0x03] = .ok (.setCycleTimes [0x00, 0x03], []) := rfl
theorem test_decode_setEq : decode .driver [0xAA, 0x1A, 0x01, 0x01] = .ok (.setEq [0x01], []) := rfl
theorem test_decode_combinationPlay :
    decode .driver [0xAA, 0x1B, 0x04, 0x30, 0x31, 0x30, 0x32] =
      .ok (.combinationPlay [(0x30, 0x31), (0x30, 0x32)], []) := rfl
theorem test_decode_endCombinationPlay : decode .driver [0xAA, 0x1C, 0x00] = .ok (.endCombinationPlay, []) := rfl
theorem test_decode_select : decode .driver [0xAA, 0x1F, 0x02, 0x00, 0x02] = .ok (.select [0x00, 0x02], []) := rfl
theorem test_decode_no_command :
    decode .driver [0xAB, 0x02, 0x00] = .error .noHeader ∧ decode .driver [0xAA, 0x16, 0x00] = .error .unlistedOpcode ∧
    decode .driver [0xAA, 0x02, 0x01, 0x00] = .error .unexpectedPayload ∧
    decode .driver [0xAA, 0x1B, 0x03, 0x30, 0x31, 0x30] = .error .oddEntries ∧
    decode .driver [0xAA, 0x13, 0x02, 0x14] = .error .truncated := ⟨rfl, rfl, rfl, rfl, rfl⟩

theorem test_decode_reply5 :
    decode .line [0xAA, 0x01, 0x01, 0x7F, 0x2B] = .ok (.reply5 0xAA 0x01 0x01 0x7F 0x2B, []) := rfl
theorem test_decode_reply6 :
    decode .line [0xAA, 0x0C, 0x02, 0x01, 0x2C, 0xE5] = .ok (.reply6 0xAA 0x0C 0x02 0x01 0x2C 0xE5, []) := rfl
theorem test_decode_no_reply : decode .line [0xAA, 0x01, 0x01, 0x7F] = .error .notAReplyLength := rfl

/-! ### Single steps, with the values of spec/95_test_vectors.md -/

/-- A state after reset in which the host has loaded its operands. -/
def loaded (opc dev : Byte) (elen : Half) (bytes : List Byte) : State :=
  { State.reset with codec := { Codec.reset with
      opc := opc
      dev := dev
      elen := elen
      ilen := BitVec.ofNat 16 bytes.length
      ibuf := memWriteBytes [] 0 bytes } }

/-- A state after reset in which the transport's next answer is fixed. -/
def answering (bytes : List Byte) : State :=
  { State.reset with link := { State.reset.link with answers := [{ arrived := bytes, limit := bytes.length }] } }

/-- Did the step end in a next state with these results? -/
def leaves (r : Result) (status : Byte) (val : Half) (acc : Byte) (out : List Byte) : Bool :=
  match r with
  | .next t =>
    t.codec.status == status && t.codec.val == val && t.codec.acc == acc && t.codec.olen.toNat == out.length &&
      t.codec.obuf == memWriteBytes [] 0 out
  | _ => false

/-- `/00001.mp3` -/
def songPath : List Byte := [0x2F, 0x30, 0x30, 0x30, 0x30, 0x31, 0x2E, 0x6D, 0x70, 0x33]

theorem test_nop_clears : leaves (exec .nop (loaded 0 0 0 [])) 0x00 0 0x00 [] = true := by decide
-- B34, B21
theorem test_build_frame : leaves (exec .build (loaded 0x56 0 0 [0x56, 0x56])) 0x00 0 0xAE
    [0xAA, 0x56, 0x02, 0x56, 0x56, 0xAE] = true := by decide
theorem test_build_checksum_wraps :
    leaves (exec .build (loaded 0x56 0 0 [])) 0x00 0 0x00 [0xAA, 0x56, 0x00, 0x00] = true := by decide
-- P1
theorem test_encpath_song : leaves (exec .encpath (loaded 0 1 0 songPath)) 0x00 0 0x00
    [0x0B, 0x01, 0x2F, 0x30, 0x30, 0x30, 0x30, 0x31, 0x2A, 0x4D, 0x50, 0x33] = true := by decide
-- R157, R158: `a/b` keeps its first byte; the length byte counts the inner slash twice
theorem test_encpath_inner_slash : leaves (exec .encpath (loaded 0 1 0 [0x61, 0x2F, 0x62])) 0x00 0 0x00
    [0x05, 0x01, 0x61, 0x2A, 0x42] = true := by decide
theorem test_bpath_song : leaves (exec .bpath (loaded 0x08 1 0 songPath)) 0x00 0 0xD8
    [0xAA, 0x08, 0x0B, 0x01, 0x2F, 0x30, 0x30, 0x30, 0x30, 0x31, 0x2A, 0x4D, 0x50, 0x33, 0xD8] = true := by decide
theorem test_bpath_empty : leaves (exec .bpath (loaded 0x08 1 0 [])) 0x02 0 0x00 [] = true := by decide
theorem test_bcomb_two : leaves (exec .bcomb (loaded 0x02 0 0 [0x30, 0x31, 0x30, 0x32])) 0x00 0 0x8C
    [0xAA, 0x1B, 0x04, 0x30, 0x31, 0x30, 0x32, 0x8C] = true := by decide
theorem test_bcomb_odd : leaves (exec .bcomb (loaded 0 0 0 [0x30])) 0x07 0 0x00 [] = true := by decide
-- V8, V5
theorem test_decode_payload : leaves (exec .decode (loaded 0 0 6 [0xAA, 0x0C, 0x02, 0x01, 0x2C, 0xE5])) 0x00 0 0xE5
    [0x01, 0x2C] = true := by decide
theorem test_decode_mismatch :
    leaves (exec .decode (loaded 0 0 5 [0xAA, 0x01, 0x01, 0x01, 0xAE])) 0x04 0 0xAD [] = true := by decide
-- V8, V1
theorem test_decu16_big_endian : leaves (exec .decu16 (loaded 0 0 6 [0xAA, 0x0C, 0x02, 0x01, 0x2C, 0xE5])) 0x00 0x012C
    0xE5 [0x01, 0x2C] = true := by decide
theorem test_decu16_too_short :
    leaves (exec .decu16 (loaded 0 0 5 [0xAA, 0x01, 0x01, 0x01, 0xAD])) 0x03 0 0xAD [] = true := by decide
-- V4, V6 and the table of all five kinds
theorem test_decenum_playState_fail : leaves (exec .decenumPlayState (loaded 0 0 5 [0xAA, 0x01, 0x01, 0x7F, 0x2B]))
    0x08 0x007F 0x2B [0x7F] = true := by decide
theorem test_decenum_playState_short :
    leaves (exec .decenumPlayState (loaded 0 0 5 [0xAA, 0x01, 0x01, 0x01])) 0x0B 0 0x00 [] = true := by decide
theorem test_decenum_device_sd : leaves (exec .decenumDevice (loaded 0 0 5 [0xAA, 0x0A, 0x01, 0x01, 0xB6])) 0x00 0x0001
    0xB6 [0x01] = true := by decide
theorem test_decenum_equalizer : leaves (exec .decenumEqualizer (loaded 0 0 5 [0xAA, 0x01, 0x01, 0x05, 0xB1])) 0x08
    0x0005 0xB1 [0x05] = true := by decide
theorem test_decenum_cycleMode : leaves (exec .decenumCycleMode (loaded 0 0 5 [0xAA, 0x01, 0x01, 0x07, 0xB3])) 0x00
    0x0007 0xB3 [0x07] = true := by decide
theorem test_decenum_previousDirPolicy :
    leaves (exec .decenumPreviousDirPolicy (loaded 0 0 5 [0xAA, 0x01, 0x01, 0x02, 0xAE])) 0x08 0x0002 0xAE
      [0x02] = true := by decide
-- R84, R139
theorem test_reserved_word : leaves (writeCtrl 0x08 (loaded 0 0 0 [])) 0x07 0 0x00 [] = true := by decide
theorem test_reserved_kind : leaves (writeCtrl 0x57 (loaded 0 0 0 [])) 0x0F 0 0x00 [] = true := by decide

-- the examples of R188 to R213
theorem test_play : leaves (exec .play State.reset) 0 0 0xAC [0xAA, 0x02, 0x00, 0xAC] = true := by decide
theorem test_pause : leaves (exec .pause State.reset) 0 0 0xAD [0xAA, 0x03, 0x00, 0xAD] = true := by decide
theorem test_stop : leaves (exec .stop State.reset) 0 0 0xAE [0xAA, 0x04, 0x00, 0xAE] = true := by decide
theorem test_previous : leaves (exec .previous State.reset) 0 0 0xAF [0xAA, 0x05, 0x00, 0xAF] = true := by decide
theorem test_next : leaves (exec .next State.reset) 0 0 0xB0 [0xAA, 0x06, 0x00, 0xB0] = true := by decide
theorem test_playByNumber : leaves (exec (driverPlayByNumber 1) State.reset) 0 0 0xB4
    [0xAA, 0x07, 0x02, 0x00, 0x01, 0xB4] = true := by decide
theorem test_playByPath : leaves (exec (.playByPath 0x01 songPath) State.reset) 0 0 0xD8
    [0xAA, 0x08, 0x0B, 0x01, 0x2F, 0x30, 0x30, 0x30, 0x30, 0x31, 0x2A, 0x4D, 0x50, 0x33, 0xD8] = true := by decide
theorem test_setDevice :
    leaves (exec (driverSetDevice 1) State.reset) 0 0 0xB7 [0xAA, 0x0B, 0x01, 0x01, 0xB7] = true := by decide
theorem test_previousDirE :
    leaves (exec .previousDirE State.reset) 0 0 0xB8 [0xAA, 0x0E, 0x00, 0xB8] = true := by decide
theorem test_previousDirF :
    leaves (exec .previousDirF State.reset) 0 0 0xB9 [0xAA, 0x0F, 0x00, 0xB9] = true := by decide
theorem test_stopInterlude :
    leaves (exec .stopInterlude State.reset) 0 0 0xBA [0xAA, 0x10, 0x00, 0xBA] = true := by decide
theorem test_setVolume :
    leaves (exec (driverSetVolume 0x14) State.reset) 0 0 0xD2 [0xAA, 0x13, 0x01, 0x14, 0xD2] = true := by decide
theorem test_volumeUp : leaves (exec .volumeUp State.reset) 0 0 0xBE [0xAA, 0x14, 0x00, 0xBE] = true := by decide
theorem test_volumeDown : leaves (exec .volumeDown State.reset) 0 0 0xBF [0xAA, 0x15, 0x00, 0xBF] = true := by decide
theorem test_interludeByPath : leaves (exec (.interludeByPath 0x01 songPath) State.reset) 0 0 0xE7
    [0xAA, 0x17, 0x0B, 0x01, 0x2F, 0x30, 0x30, 0x30, 0x30, 0x31, 0x2A, 0x4D, 0x50, 0x33, 0xE7] = true := by decide
theorem test_setCycleMode :
    leaves (exec (driverSetCycleMode 2) State.reset) 0 0 0xC5 [0xAA, 0x18, 0x01, 0x02, 0xC5] = true := by decide
theorem test_setCycleTimes : leaves (exec (driverSetCycleTimes 3) State.reset) 0 0 0xC8
    [0xAA, 0x19, 0x02, 0x00, 0x03, 0xC8] = true := by decide
theorem test_setEq :
    leaves (exec (driverSetEq 1) State.reset) 0 0 0xC6 [0xAA, 0x1A, 0x01, 0x01, 0xC6] = true := by decide
theorem test_combinationPlay : leaves (exec (.combinationPlay [(0x30, 0x31), (0x30, 0x32)]) State.reset) 0 0 0x8C
    [0xAA, 0x1B, 0x04, 0x30, 0x31, 0x30, 0x32, 0x8C] = true := by decide
theorem test_endCombinationPlay :
    leaves (exec .endCombinationPlay State.reset) 0 0 0xC6 [0xAA, 0x1C, 0x00, 0xC6] = true := by decide
theorem test_select : leaves (exec (driverSelect 2) State.reset) 0 0 0xCD
    [0xAA, 0x1F, 0x02, 0x00, 0x02, 0xCD] = true := by decide

-- the queries, with replies V1, V11, V8, V20, V21, V22; Program 4, step 3
theorem test_queryPlayState : leaves (exec .queryPlayState (answering [0xAA, 0x01, 0x01, 0x01, 0xAD])) 0 1 0xAD
    [0x01] = true := by decide
theorem test_getDevice : leaves (exec .getDevice (answering [0xAA, 0x0A, 0x01, 0x01, 0xB6])) 0 1 0xB6
    [0x01] = true := by decide
theorem test_getSoundCount : leaves (exec .getSoundCount (answering [0xAA, 0x0C, 0x02, 0x01, 0x2C, 0xE5])) 0 300 0xE5
    [0x01, 0x2C] = true := by decide
theorem test_getSoundCount_short :
    leaves (exec .getSoundCount (answering [0xAA, 0x0C, 0x02, 0x01])) 3 0 0x00 [] = true := by decide
theorem test_getPlayingSound : leaves (exec .getPlayingSound (answering [0xAA, 0x0D, 0x02, 0x00, 0x07, 0xC0])) 0 7 0xC0
    [0x00, 0x07] = true := by decide
theorem test_getFirstInDir : leaves (exec .getFirstInDir (answering [0xAA, 0x11, 0x02, 0x00, 0x01, 0xBE])) 0 1 0xBE
    [0x00, 0x01] = true := by decide
theorem test_getSoundCountDir : leaves (exec .getSoundCountDir (answering [0xAA, 0x12, 0x02, 0x00, 0x0A, 0xC8])) 0 10
    0xC8 [0x00, 0x0A] = true := by decide

/-- `QUERY_PLAY_STATE` built and the transport about to answer with `bytes`. -/
def sending (bytes : List Byte) : State :=
  { answering bytes with codec := buildFrame [] (beginOp 0x01 { Codec.reset with opc := 0x01 }) }

/-- What is in `RXQ` after the step. -/
def queueAfter (r : Result) : Option (List Byte) :=
  match r with
  | .next t => some t.link.rxq
  | _ => none

theorem test_reply5 : queueAfter (exec (.reply5 0xAA 0x01 0x01 0x7F 0x2B)
    { State.reset with link := { State.reset.link with rxq := [0x55] } }) =
      some [0x55, 0xAA, 0x01, 0x01, 0x7F, 0x2B] := by decide
theorem test_reply6 : queueAfter (exec (.reply6 0xAA 0x0C 0x02 0x01 0x2C 0xE5) State.reset) =
    some [0xAA, 0x0C, 0x02, 0x01, 0x2C, 0xE5] := by decide

/-- The exchange after the step. -/
def exchangeOf (r : Result) : Option Exchange :=
  match r with
  | .next t => some t.exchange
  | _ => none

-- R266 step 4: the whole reply read, then decoded; R267: given up after a short one
theorem test_read_then_decode :
    exchangeOf (runEvents [.tx, .rx 5] (sending [0xAA, 0x01, 0x01, 0x01, 0xAD])) = some .replyRead ∧
    exchangeOf (runEvents [.tx, .rx 5, .drain] (sending [0xAA, 0x01, 0x01, 0x01, 0xAD])) = some .replyRead ∧
    exchangeOf (runEvents [.tx, .rx 5, .op 0x07] (sending [0xAA, 0x01, 0x01, 0x01, 0xAD])) = some .closed := by decide
theorem test_short_then_drain :
    exchangeOf (runEvents [.tx, .rx 5] (sending [0xAA])) = some .replyShort ∧
    exchangeOf (runEvents [.tx, .rx 5, .drain] (sending [0xAA])) = some .closed := by decide

-- R30, R60, R39: what was written reads back, an unwritten byte has no value
theorem test_read_input :
    (match readByte .ibuf 1 (loaded 0 0 0 [0x30, 0x31]) with
      | .next t => t.host.readback
      | _ => none) = some 0x0031 ∧
    (match readByte .ibuf 2 (loaded 0 0 0 [0x30, 0x31]) with
      | .fault f => f = .unwrittenInput
      | _ => False) := ⟨by decide, rfl⟩

/-! ### The host's interface: words of the opcode table -/

/-- Did the step end in a next state with this word in `CTRL`? -/
def nextWithCtrl (r : Result) (w : Byte) : Bool :=
  match r with
  | .next t => t.codec.ctrl == w
  | _ => false

theorem test_table_rows : decodeTableWord 8 0x17 = some .decenumDevice ∧ decodeTableWord 16 0xAA02 = some .play ∧
    decodeTableWord 16 0xAA08 = some (.playByPath 0 []) ∧ decodeTableWord 16 0xAA1B = some (.combinationPlay []) ∧
    decodeTableWord 16 0 = some (.reply5 0 0 0 0 0) ∧ decodeTableWord 48 0 = some (.reply6 0 0 0 0 0 0) :=
  ⟨rfl, rfl, rfl, rfl, rfl, rfl⟩
theorem test_fetch_operation : nextWithCtrl (step (State.reset.withFetchWord 8 0x47)) 0x47 = true := by decide
theorem test_fetch_command : nextWithCtrl (step (State.reset.withFetchWord 16 0xAA13)) 0x01 = true := rfl
theorem test_fetch_query : (match step (State.reset.withFetchWord 16 0xAA01) with
    | .next _ => true
    | _ => false) = true := rfl
theorem test_fetch_reply : queueAfter (step (State.reset.withFetchWord 16 0)) = some [0, 0, 0, 0, 0] := rfl

/-! ### Witnesses: states and operands that meet the hypotheses of each obligation, at the ends of their ranges -/

/-- What the host has loaded is the operand. -/
theorem loaded_inputIs (opc dev : Byte) (elen : Half) (bytes : List Byte) (h : bytes.length ≤ 512) :
    inputIs (loaded opc dev elen bytes) bytes :=
  inputIs_loaded _ [] bytes rfl rfl h (by omega)

/-- A state whose `ILEN` claims more than `IBUF` has. -/
def overlong : State := { State.reset with codec := { Codec.reset with ilen := 513 } }

/-- A state after `BUILD` of a command without payload. -/
def built (opc : Byte) : State :=
  { State.reset with codec := buildFrame [] (beginOp 0x01 { Codec.reset with opc := opc }) }

theorem built_eq (opc : Byte) : exec .build (loaded opc 0 0 []) = .next (built opc) := rfl

theorem built_output (opc : Byte) :
    outputIs (built opc) [0xAA, opc, 0x00, sum8 [0xAA, opc, 0x00]] :=
  outputIs_of_emit _ _ (by simp [obufCap]) rfl rfl

/-- The same state in the middle of an exchange. -/
def waiting (e : Exchange) : State :=
  { built 0x01 with exchange := e }

theorem witness_DecodeOfEncode :
    Instr.wellFormed (.playByPath 0xFF (fill 255 0xFF)) = true ∧ Instr.wellFormed (.select []) = true ∧
    Instr.wellFormed (.combinationPlay (fill 127 (0xFF, 0x00))) = true := by
  simp only [Instr.wellFormed, Instr.operandBytes, fill_length]; decide

theorem witness_DecodedBytesAreTheEncoding :
    decode .ctrl [0x47, 0xFF] = .ok (.decenumPreviousDirPolicy, [0xFF]) ∧
    decode .driver [0xAA, 0x08, 0x00, 0x01] = .ok (.playByPath 0x01 [], []) ∧
    decode .line [0, 0, 0, 0, 0] = .ok (.reply5 0 0 0 0 0, []) := ⟨rfl, rfl, rfl⟩

theorem witness_UnlistedOpcodeIsNoCommand : (0x20 : Byte) ≤ 0x20 ∧ (0x20 : Byte) ≤ 0xFF := by decide

theorem witness_PathByteTransformation :
    ([0x61, 0x7A] : List Byte).all (fun c => decide (c ≠ 0x2E ∧ c ≠ 0x2F ∧ (0x61 : Byte) ≤ c ∧ c ≤ 0x7A)) = true ∧
    ([0x60, 0x7B, 0xFF] : List Byte).all
      (fun c => decide (c ≠ 0x2E ∧ c ≠ 0x2F ∧ (c < 0x61 ∨ (0x7A : Byte) < c))) = true := by decide

theorem witness_NothingHappensByItself : State.reset.host.script = [] := rfl

theorem witness_ReservedWordIsBadOperand :
    ([0x80, 0x08, 0x0F, 0x10, 0x57, 0x77, 0xFF] : List Byte).all
      (fun w => (decodeWord w).toOption == none) = true := by decide

theorem witness_OverlongInputIsBadOperand :
    isOperation .build ∧ Instr.build ≠ .nop ∧ overlong.params.inCap < overlong.codec.ilen.toNat :=
  ⟨rfl, by decide, by decide⟩

theorem witness_UnwrittenInputIsAFault :
    let s : State := { State.reset with codec := { Codec.reset with ilen := 2, ibuf := [(0, 0xAA)] } }
    isOperation .decode ∧ Instr.decode ≠ .nop ∧ s.codec.ilen.toNat ≤ s.params.inCap ∧
      ∃ a, a < s.codec.ilen.toNat ∧ memRead s.codec.ibuf a = none :=
  ⟨rfl, by decide, by decide, 1, by decide, by decide⟩

theorem witness_OperationsKeepOperands :
    (∃ t, runEvent (.op 0x01) (loaded 0x02 0 0 []) = .next t) ∧ (∃ t, runEvent (.op 0x80) overlong = .next t) ∧
    ∃ t, runEvent (.op 0x47) (waiting .replyShort) = .next t :=
  ⟨⟨_, rfl⟩, ⟨_, rfl⟩, _, rfl⟩

theorem witness_ErrorExitLeavesNoOutput :
    ∃ t, runEvent (.op 0x05) (loaded 0 0 0 []) = .next t ∧ errOf t.codec.status ≠ 0 := ⟨_, rfl, by decide⟩

theorem witness_FailedEnumDecodeSetsEfail :
    (opselOf 0xF7 = 7 ∧ ∃ t, runEvent (.op 0xF7) State.reset = .next t ∧ errOf t.codec.status ≠ 0) ∧
    opselOf 0x07 = 7 ∧ ∃ t, runEvent (.op 0x07) State.reset = .next t ∧ errOf t.codec.status ≠ 0 :=
  ⟨⟨rfl, _, rfl, by decide⟩, rfl, _, rfl, by decide⟩

/-- Two states with one operand and different histories: another `STATUS`, another byte beyond `ILEN`. -/
theorem witness_ResultsDependOnOperandsOnly :
    let s := loaded 0x13 0 5 [0x14]
    let s' : State := { s with codec := { s.codec with status := 0x0C, ibuf := [(0, 0x14), (1, 0xFF)] } }
    isOperation .build ∧ s.params = s'.params ∧ s.codec.opc = s'.codec.opc ∧ s.codec.dev = s'.codec.dev ∧
      s.codec.elen = s'.codec.elen ∧ s.codec.ilen = s'.codec.ilen ∧
      ∀ a, a < s.codec.ilen.toNat → memRead s.codec.ibuf a = memRead s'.codec.ibuf a :=
  ⟨rfl, rfl, rfl, rfl, rfl, rfl, by decide⟩

theorem witness_BuildMakesTheFrame :
    overlong.params.inCap < overlong.codec.ilen.toNat ∧
    (∃ s p, inputIs s p ∧ 255 < p.length) ∧ ∃ s p, inputIs s p ∧ p.length = 255 :=
  ⟨by decide,
    ⟨loaded 0 0 0 (fill 256 0), _, loaded_inputIs _ _ _ _ (by simp), by simp⟩,
    loaded 0 0 0 (fill 255 0), _, loaded_inputIs _ _ _ _ (by simp), by simp⟩

theorem witness_EmptyPayloadChecksum :
    (loaded 0x02 0 0 []).codec.ilen = 0 ∧ (loaded 0x02 0 0 []).codec.opc = 0x02 := ⟨rfl, rfl⟩

theorem witness_BuildFramesAreDistinct :
    let s := loaded 0x02 0 0 []
    let s' := loaded 0x02 9 7 []
    inputIs s [] ∧ inputIs s' [] ∧ ∃ t t' frame, exec .build s = .next t ∧ exec .build s' = .next t' ∧
      outputIs t frame ∧ outputIs t' frame :=
  ⟨loaded_inputIs _ _ _ _ (by simp), loaded_inputIs _ _ _ _ (by simp), built 0x02, _, _, rfl, rfl, built_output 0x02,
    outputIs_of_emit _ _ (by simp [obufCap]) rfl rfl⟩

/-- Lengths 254 and 255 without an inner slash; the path of R154 with 84 and 85 of them. -/
theorem witness_EncpathEncodesThePath :
    overlong.params.inCap < overlong.codec.ilen.toNat ∧ inputIs (loaded 0 0 0 []) [] ∧
    (∃ s first others, inputIs s (first :: others) ∧ newLen (first :: others) + 1 = 256) ∧
    (∃ s first others, inputIs s (first :: others) ∧ newLen (first :: others) + 1 = 255) ∧
    (∃ s first others, inputIs s (first :: others) ∧ others.count 0x2F = 85 ∧ newLen (first :: others) + 1 = 256) ∧
    ∃ s first others, inputIs s (first :: others) ∧ others.count 0x2F = 84 ∧ newLen (first :: others) + 1 = 255 := by
  refine ⟨by decide, loaded_inputIs _ _ _ _ (by simp), ?_, ?_, ?_, ?_⟩
  · exact ⟨loaded 0 0 0 (0x61 :: fill 254 0x61), 0x61, _, loaded_inputIs _ _ _ _ (by simp),
      by rw [newLen_cons]; simp [fill_count, slash]⟩
  · exact ⟨loaded 0 0 0 (0x61 :: fill 253 0x61), 0x61, _, loaded_inputIs _ _ _ _ (by simp),
      by rw [newLen_cons]; simp [fill_count, slash]⟩
  · exact ⟨loaded 0 0 0 (0x61 :: (fill 85 0x2F ++ fill 84 0x61)), 0x61, _,
      loaded_inputIs _ _ _ _ (by simp), by simp [fill_count],
      by rw [newLen_cons]; simp [fill_count, slash]⟩
  · exact ⟨loaded 0 0 0 (0x61 :: (fill 84 0x2F ++ fill 85 0x61)), 0x61, _,
      loaded_inputIs _ _ _ _ (by simp), by simp [fill_count],
      by rw [newLen_cons]; simp [fill_count, slash]⟩

/-- The premises of the statement about `BPATH` are those of `ENCPATH`. -/
theorem witness_BpathFramesThePath :
    inputIs (loaded 0x08 0x01 0 [0x2F]) [0x2F] ∧ newLen [0x2F] + 1 = 2 ∧
    inputIs (loaded 0x08 0x01 0 (0x2F :: fill 254 0x2E)) (0x2F :: fill 254 0x2E) ∧
    newLen (0x2F :: fill 254 0x2E) + 1 = 256 :=
  ⟨loaded_inputIs _ _ _ _ (by simp), rfl, loaded_inputIs _ _ _ _ (by simp),
    by rw [newLen_cons]; simp [fill_count, slash]⟩

theorem witness_EmptyPathProducesNothing : (loaded 0x08 0x01 0 []).codec.ilen = 0 := rfl

theorem witness_PathLengthByteCountsInnerSlashesTwice :
    let s := loaded 0 0x01 0 [0x61, 0x2F, 0x62]
    inputIs s [0x61, 0x2F, 0x62] ∧ ∃ t out, exec .encpath s = .next t ∧ errOf t.codec.status = 0 ∧ outputIs t out :=
  ⟨loaded_inputIs _ _ _ _ (by simp), _, [0x05, 0x01, 0x61, 0x2A, 0x42], rfl, by decide,
    outputIs_of_emit _ _ (by simp [obufCap]) rfl rfl⟩

theorem witness_BcombMakesTheStream :
    inputIs (loaded 0 0 0 []) [] ∧ inputIs (loaded 0 0 0 [0x30]) [0x30] ∧
    (∃ s e, inputIs s e ∧ e.length % 2 = 0 ∧ e.length = 256) ∧
    (∃ s e, inputIs s e ∧ e.length % 2 = 1 ∧ e.length = 257) ∧
    (∃ s e, inputIs s e ∧ e.length % 2 = 0 ∧ e.length = 254) ∧ inputIs (loaded 0 0 0 [0x30, 0x31]) [0x30, 0x31] :=
  ⟨loaded_inputIs _ _ _ _ (by simp), loaded_inputIs _ _ _ _ (by simp),
    ⟨loaded 0 0 0 (fill 256 0), _, loaded_inputIs _ _ _ _ (by simp), by simp, by simp⟩,
    ⟨loaded 0 0 0 (fill 257 0), _, loaded_inputIs _ _ _ _ (by simp), by simp, by simp⟩,
    ⟨loaded 0 0 0 (fill 254 0), _, loaded_inputIs _ _ _ _ (by simp), by simp, by simp⟩,
    loaded_inputIs _ _ _ _ (by simp)⟩

theorem witness_BcombIsBuildOfTheCombinationOpcode :
    inputIs (loaded 0x02 0 0 [0x30, 0x31]) [0x30, 0x31] ∧
    ∃ e : List Byte, inputIs (loaded 0x02 0 0 e) e ∧ e.length % 2 = 0 ∧ e.length = 254 :=
  ⟨loaded_inputIs _ _ _ _ (by simp), fill 254 0, loaded_inputIs _ _ _ _ (by simp), by simp, by simp⟩

theorem sum8_zeros (n : Nat) : sum8 (List.replicate n (0 : Byte)) = 0 := by
  induction n with
  | zero => rfl
  | succ n ih => rw [List.replicate_succ, sum8_cons, ih]; rfl

/-- A reply of zeros is accepted, at every length (R132); here with `n` bytes. -/
theorem zeros_accepted (n : Nat) (hn : n ≤ 512) (h1 : 1 ≤ n) :
    inputIs (loaded 0 0 1 (fill n 0)) (fill n 0) ∧ (loaded 0 0 1 (fill n 0)).codec.elen ≠ 0 ∧
      (loaded 0 0 1 (fill n 0)).codec.elen.toNat ≤ (fill n (0 : Byte)).length ∧
      (fill n (0 : Byte))[(fill n (0 : Byte)).length - 1]? =
        some (sum8 ((fill n (0 : Byte)).take ((fill n (0 : Byte)).length - 1))) := by
  refine ⟨loaded_inputIs _ _ _ _ (by simpa using hn), by simp [loaded], by simp [loaded]; omega, ?_⟩
  simp only [fill_length]
  simp only [fill, List.take_replicate, sum8_zeros]
  rw [List.getElem?_replicate, if_pos (by omega)]

/-- The clauses for a reply: `ELEN = 0`, one byte short of `ELEN`, a wrong sum, and the longest reply of the first
statement, 263 bytes. -/
theorem witness_DecodeChecksTheReply :
    (inputIs (loaded 0 0 0 [0xAD]) [0xAD] ∧ (loaded 0 0 0 [0xAD]).codec.elen = 0) ∧
    (inputIs (loaded 0 0 5 [0xAA, 0x01, 0x01, 0x01]) [0xAA, 0x01, 0x01, 0x01] ∧
      (4 : Nat) < (loaded 0 0 5 [0xAA, 0x01, 0x01, 0x01]).codec.elen.toNat) ∧
    (inputIs (loaded 0 0 1 [0x01]) [0x01] ∧ ([0x01] : List Byte)[0]? ≠ some (sum8 [])) ∧
    ∃ raw, inputIs (loaded 0 0 1 raw) raw ∧ raw.length = 263 ∧
      raw[raw.length - 1]? = some (sum8 (raw.take (raw.length - 1))) :=
  have h := zeros_accepted 263 (by decide) (by decide)
  ⟨⟨loaded_inputIs _ _ _ _ (by simp), rfl⟩, ⟨loaded_inputIs _ _ _ _ (by simp), by decide⟩,
    ⟨loaded_inputIs _ _ _ _ (by simp), by decide⟩, fill 263 0, h.1, by simp, h.2.2.2⟩

theorem witness_DecodeAcceptsExactlyMatchingSums :
    inputIs (loaded 0 0 1 [0x00]) [0x00] ∧ 1 ≤ (loaded 0 0 1 [0x00]).codec.elen.toNat ∧
      (loaded 0 0 1 [0x00]).codec.elen.toNat ≤ ([0x00] : List Byte).length :=
  ⟨loaded_inputIs _ _ _ _ (by simp), by decide, by decide⟩

theorem witness_ShortReplyIsNeverPartlyDecoded :
    isDecoder .decode ∧ isDecoder .decu16 ∧ isDecoder .decenumCycleMode ∧
    inputIs (loaded 0 0 5 [0xAA, 0x01, 0x01, 0xAC]) [0xAA, 0x01, 0x01, 0xAC] ∧
    ([0xAA, 0x01, 0x01, 0xAC] : List Byte).length < (loaded 0 0 5 [0xAA, 0x01, 0x01, 0xAC]).codec.elen.toNat :=
  ⟨.inl rfl, .inr (.inl rfl), .inr (.inr ⟨.cycleMode, rfl⟩), loaded_inputIs _ _ _ _ (by simp), by decide⟩

/-- Replies of zeros that pass the tests, of the lengths where the statements on replies meet. -/
theorem longest_zeros (n : Nat) (hn : n = 263 ∨ n = 264 ∨ n = 512) :
    ∃ s raw, inputIs s raw ∧ raw.length = n ∧ s.codec.elen ≠ 0 ∧ s.codec.elen.toNat ≤ raw.length ∧
      raw[raw.length - 1]? = some (sum8 (raw.take (raw.length - 1))) ∧ raw[3]? = some (0 : Byte) ∧ raw[4]? = some (0 : Byte) :=
  have h := zeros_accepted n (by omega) (by omega)
  ⟨_, _, h.1, by simp, h.2.1, h.2.2.1, h.2.2.2, by rw [fill, List.getElem?_replicate, if_pos (by omega)],
    by rw [fill, List.getElem?_replicate, if_pos (by omega)]⟩

/-- Five and six bytes that pass the tests, one payload byte too few and just enough; and the longest reply. -/
theorem witness_Decu16ExtractsTheValue :
    (∃ raw : List Byte, inputIs (loaded 0 0 5 raw) raw ∧ raw.length = 5 ∧ raw[4]? = some (sum8 (raw.take 4))) ∧
    (∃ raw : List Byte, inputIs (loaded 0 0 6 raw) raw ∧ raw.length = 6 ∧ raw[5]? = some (sum8 (raw.take 5)) ∧
      raw[3]? = some 0x01 ∧ raw[4]? = some 0x2C) ∧
    ∃ s raw, inputIs s raw ∧ raw.length = 263 ∧ s.codec.elen ≠ 0 ∧ s.codec.elen.toNat ≤ raw.length ∧
      raw[raw.length - 1]? = some (sum8 (raw.take (raw.length - 1))) ∧ raw[3]? = some (0 : Byte) ∧ raw[4]? = some (0 : Byte) :=
  ⟨⟨[0xAA, 0x01, 0x01, 0x01, 0xAD], loaded_inputIs _ _ _ _ (by simp), by decide, by decide⟩,
    ⟨[0xAA, 0x0C, 0x02, 0x01, 0x2C, 0xE5], loaded_inputIs _ _ _ _ (by simp), by decide, by decide, by decide, by decide⟩,
    longest_zeros 263 (.inl rfl)⟩

/-- Four and five bytes that pass the tests, and the longest reply. -/
theorem witness_DecenumMapsTheStatusByte :
    (∃ raw : List Byte, inputIs (loaded 0 0 4 raw) raw ∧ raw.length = 4 ∧ raw[3]? = some (sum8 (raw.take 3))) ∧
    (∃ raw : List Byte, inputIs (loaded 0 0 5 raw) raw ∧ raw.length = 5 ∧ raw[4]? = some (sum8 (raw.take 4)) ∧
      raw[3]? = some 0x7F) ∧
    ∃ s raw, inputIs s raw ∧ raw.length = 263 ∧ s.codec.elen ≠ 0 ∧ s.codec.elen.toNat ≤ raw.length ∧
      raw[raw.length - 1]? = some (sum8 (raw.take (raw.length - 1))) ∧ raw[3]? = some (0 : Byte) ∧ raw[4]? = some (0 : Byte) :=
  ⟨⟨[0, 0, 0, 0], loaded_inputIs _ _ _ _ (by simp), by decide, by decide⟩,
    ⟨[0xAA, 0x01, 0x01, 0x7F, 0x2B], loaded_inputIs _ _ _ _ (by simp), by decide, by decide, by decide⟩,
    longest_zeros 263 (.inl rfl)⟩

theorem witness_LongReplyIsDecoded :
    isDecoder .decode ∧ isDecoder .decu16 ∧ isDecoder .decenumDevice ∧
    ∀ n, n = 264 ∨ n = 512 → ∃ s raw, inputIs s raw ∧ raw.length = n ∧ s.codec.elen ≠ 0 ∧
      s.codec.elen.toNat ≤ raw.length ∧ raw[raw.length - 1]? = some (sum8 (raw.take (raw.length - 1))) ∧
      raw[3]? = some (0 : Byte) ∧ raw[4]? = some (0 : Byte) :=
  ⟨.inl rfl, .inr (.inl rfl), .inr (.inr ⟨.device, rfl⟩), fun n hn => longest_zeros n (.inr hn)⟩

theorem witness_BuiltFramesDecodeToTheirPayload :
    let frame : List Byte := [0xAA, 0x02, 0x00, 0xAC]
    inputIs (loaded 0x02 0 0 []) [] ∧ exec .build (loaded 0x02 0 0 []) = .next (built 0x02) ∧
      errOf (built 0x02).codec.status = 0 ∧ outputIs (built 0x02) frame ∧ frame ≠ [] ∧
      inputIs (loaded 0x02 0 4 frame) frame ∧ 1 ≤ (loaded 0x02 0 4 frame).codec.elen.toNat ∧
      (loaded 0x02 0 4 frame).codec.elen.toNat ≤ frame.length :=
  ⟨loaded_inputIs _ _ _ _ (by simp), rfl, by decide, built_output 0x02, by decide, loaded_inputIs _ _ _ _ (by simp),
    by decide, by decide⟩

theorem witness_SingleBitErrorIsDetected :
    let raw : List Byte := [0xAA, 0x01, 0x01, 0x01, 0xAD]
    let bad := raw.set 4 (0xAD ^^^ (1#8 <<< 7))
    inputIs (loaded 0 0 5 raw) raw ∧ (∃ t, exec .decode (loaded 0 0 5 raw) = .next t ∧ errOf t.codec.status = 0) ∧
      raw[4]? = some 0xAD ∧ (loaded 0 0 5 bad).codec.elen = (loaded 0 0 5 raw).codec.elen ∧
      inputIs (loaded 0 0 5 bad) bad :=
  ⟨loaded_inputIs _ _ _ _ (by simp), ⟨_, rfl, by decide⟩, rfl, rfl, loaded_inputIs _ _ _ _ (by simp)⟩

theorem reset_params_wf : State.reset.params.wf := by decide

theorem witness_CommandsBuildTheirFrames :
    commandOf .play = some (0x02, []) ∧ commandOf (.select (fill 255 0)) = some (0x1F, fill 255 0) ∧
    (fill 255 (0 : Byte)).length ≤ 255 ∧ State.reset.params.wf :=
  ⟨rfl, rfl, by simp, reset_params_wf⟩

theorem witness_OverlongCommandPayload :
    (∃ payload : List Byte, commandOf (.setEq payload) = some (0x1A, payload) ∧ payload.length = 256 ∧
      payload.length ≤ State.reset.params.inCap) ∧
    (∃ payload : List Byte, commandOf (.setEq payload) = some (0x1A, payload) ∧ 255 < payload.length ∧
      State.reset.params.inCap < payload.length) ∧ State.reset.params.wf :=
  ⟨⟨fill 256 0, rfl, by simp, by simp only [fill_length]; decide⟩,
    ⟨fill 513 0, rfl, by simp, by simp only [fill_length]; decide⟩, reset_params_wf⟩

theorem witness_PathCommandsFrameThePath :
    pathCommandOf (.playByPath 0x01 []) = some (0x08, 0x01, []) ∧
    (∃ path : List Byte, pathCommandOf (.interludeByPath 0x02 path) = some (0x17, 0x02, path) ∧
      path.length = State.reset.params.inCap) ∧
    (∃ path : List Byte, pathCommandOf (.interludeByPath 0x02 path) = some (0x17, 0x02, path) ∧
      path.length = State.reset.params.inCap + 1) ∧ State.reset.params.wf :=
  ⟨rfl, ⟨fill 512 0, rfl, by simp only [fill_length]; decide⟩,
    ⟨fill 513 0, rfl, by simp only [fill_length]; decide⟩, reset_params_wf⟩

theorem witness_CombinationPlayMakesTheStream :
    (∃ es : List (Byte × Byte), es.length = 127) ∧
    (∃ es : List (Byte × Byte), es.length = 128 ∧ 2 * es.length ≤ State.reset.params.inCap) ∧
    (∃ es : List (Byte × Byte), 2 * es.length = State.reset.params.inCap + 2) ∧ State.reset.params.wf :=
  ⟨⟨fill 127 (0, 0), by simp⟩,
    ⟨fill 128 (0, 0), by simp, by simp only [fill_length]; decide⟩,
    ⟨fill 257 (0, 0), by simp only [fill_length]; decide⟩, reset_params_wf⟩

theorem witness_QueriesSendReadAndDecode :
    queryOf .queryPlayState = some (0x01, 5, .decenumPlayState) ∧
    queryOf .getSoundCountDir = some (0x12, 6, .decu16) ∧ State.reset.params.wf ∧ State.reset.exchange ≠ .replyRead ∧
    (waiting .replyRead).params.wf ∧ (waiting .replyRead).exchange = .replyRead :=
  ⟨rfl, rfl, reset_params_wf, by decide, reset_params_wf, rfl⟩

theorem witness_TxSendsTheOutput :
    (errOf State.reset.codec.status ≠ 0 ∨ State.reset.codec.olen = 0) ∧
    (∃ s : State, errOf s.codec.status = 0 ∧ outputIs s [0xAA, 0x01, 0x00, 0xAB] ∧ s.exchange ≠ .closed) ∧
    (∃ s : State, errOf s.codec.status = 0 ∧ s.exchange = .closed ∧
      ∃ k, k < s.codec.olen.toNat ∧ memRead s.codec.obuf k = none) ∧
    errOf (built 0x01).codec.status = 0 ∧ outputIs (built 0x01) [0xAA, 0x01, 0x00, 0xAB] ∧
      (built 0x01).exchange = .closed :=
  ⟨.inr rfl, ⟨waiting .replyShort, by decide, built_output 0x01, by decide⟩,
    ⟨{ State.reset with codec := { Codec.reset with olen := 260, obuf := [(0, 0)] } }, by decide, rfl, 259, by decide, by decide⟩,
    by decide, built_output 0x01, rfl⟩

theorem witness_NothingToSendAfterNoOutput :
    (∃ t, runEvent (.op 0x03) (loaded 0x08 1 0 []) = .next t ∧ errOf t.codec.status ≠ 0) ∧
    (∃ t, runEvent (.op 0x00) overlong = .next t) ∧
    ∃ t, runEvent (.op 0x04) (loaded 0 0 0 []) = .next t ∧ (loaded 0 0 0 []).codec.ilen = 0 :=
  ⟨⟨_, rfl, by decide⟩, ⟨_, rfl⟩, _, rfl, rfl⟩

theorem witness_RxMovesTheFrontOfTheQueue : State.reset.params.wf ∧ State.reset.params.inCap = 512 ∧
    ∀ e, (waiting e).params.wf ∧ (waiting e).exchange = e :=
  ⟨reset_params_wf, rfl, fun _ => ⟨reset_params_wf, rfl⟩⟩

theorem witness_EveryRxOutcomeIsPossible :
    State.reset.params.wf ∧ State.reset.link.rxq = [] ∧ ∃ bytes : List Byte, bytes.length = 512 :=
  ⟨reset_params_wf, rfl, fill 512 0, by simp⟩

theorem emitted_output (out : List Byte) (h : out.length ≤ 259) :
    outputIs { State.reset with codec := emit out Codec.reset } out :=
  outputIs_of_emit _ _ h rfl rfl

/-- The longest frame, and its last byte. -/
theorem witness_HostBufferAccesses :
    (∃ s : State, 258 < s.codec.olen.toNat ∧ memRead s.codec.obuf 258 = some (0 : Byte)) ∧
      State.reset.codec.olen.toNat ≤ 258 ∧ 511 < State.reset.params.inCap ∧ State.reset.params.inCap ≤ 512 ∧
      memRead State.reset.codec.ibuf 511 = none ∧ ∃ s : State, 511 < s.params.inCap ∧ memRead s.codec.ibuf 511 = some 0 :=
  ⟨⟨_, by rw [(emitted_output (fill 259 0) (by simp)).1, fill, List.length_replicate]; decide,
      by rw [(emitted_output (fill 259 0) (by simp)).2 258, fill, List.getElem?_replicate]; rfl⟩, by decide,
    by decide, by decide, rfl, { State.reset with codec := { Codec.reset with ibuf := [(511, 0)] } }, by decide, by decide⟩

theorem witness_OneCommandInFlight :
    (∃ t, runEvent .tx (built 0x01) = .next t) ∧ outputIs (built 0x01) [0xAA, 0x01, 0x00, 0xAB] ∧
      expectsReply [0xAA, 0x01, 0x00, 0xAB] = true ∧ (built 0x01).params.wf ∧
      ∀ bytes, bytes = [0xAA, 0x01, 0x01, 0x01, 0xAD] ∨ bytes = [] →
        ∃ t, runEvent .tx { built 0x01 with link := (answering bytes).link } = .next t ∧
          delivered 5 t.link = bytes :=
  ⟨⟨_, transmit_ready _ _ (by decide) (built_output 0x01) (by decide) rfl⟩, built_output 0x01, rfl, reset_params_wf,
    fun _ h => ⟨_, transmit_ready _ _ (by decide : errOf (built 0x01).codec.status = 0) (built_output 0x01) (by decide) rfl, by rcases h with rfl | rfl <;> rfl⟩⟩

theorem witness_OnlyOperationsWriteResults :
    (∀ w, Event.drain ≠ .op w) ∧ (∀ bs, Event.drain ≠ .command bs) ∧ Event.drain ≠ .reset ∧
      ∃ t, runEvent .drain (built 0x01) = .next t :=
  ⟨by simp, by simp, by simp, _, rfl⟩

theorem witness_StepRunsTheDecodedInstruction :
    decode .ctrl [0x01] = .ok (.build, []) ∧ decode .driver [0xAA, 0x02, 0x00] = .ok (.play, []) ∧
    decode .line [0, 0, 0, 0, 0] = .ok (.reply5 0 0 0 0 0, []) ∧ decodeTableWord 16 0xAA1F = some (.select []) ∧
    (∃ s : State, s.host.script = .op 0x01 :: []) ∧ (∃ s : State, s.host.script = .command [0xAA, 0x02, 0x00] :: []) ∧
    ∃ s : State, s.host.script = .arrive [0, 0, 0, 0, 0] :: [] :=
  ⟨rfl, rfl, rfl, rfl, ⟨{ State.reset with host := { script := [.op 0x01], readback := none } }, rfl⟩,
    ⟨{ State.reset with host := { script := [.command [0xAA, 0x02, 0x00]], readback := none } }, rfl⟩,
    { State.reset with host := { script := [.arrive [0, 0, 0, 0, 0]], readback := none } }, rfl⟩

/-- A state that meets both invariants and holds a frame, about to run `PLAY`. -/
theorem witness_StepKeepsTheInvariant :
    let s := (built 0x01).withFetchWord 16 0xAA02
    machineInv s ∧ ∃ t, step s = .next t :=
  ⟨by decide, _, rfl⟩

theorem witness_BuiltFramesStaySealed :
    let s := (built 0x01).withFetchWord 8 0x01
    frameInv s ∧ s.codec.ctrl ∈ [(0x01 : Byte), 0x03, 0x04] ∧ s.codec.olen ≠ 0 ∧ ∃ t, step s = .next t :=
  ⟨by decide, by decide, by decide, _, rfl⟩

theorem witness_ParametersFixedAndWireOnlyGrows : ∃ t, step (State.reset.withFetchWord 8 0x05) = .next t := ⟨_, rfl⟩

/-- A decoding operation after an `RX`, a `DRAIN` before one, and a `TX`. -/
theorem witness_ExchangeEndsByDecodingOrGivingUp :
    (∃ t, runEvent (.op 0x05) (waiting .replyRead) = .next t ∧ t.exchange = .closed) ∧
    (∃ t, runEvent .drain (waiting .replyDue) = .next t ∧ t.exchange = .closed) ∧
    (∃ t, runEvent (.command [0xAA, 0x01, 0x00]) { waiting .replyShort with link := (answering []).link } = .next t ∧
      t.exchange = .closed) ∧
    ∃ t, runEvent .tx (built 0x01) = .next t ∧ (built 0x01).exchange = .closed ∧ t.exchange ≠ .closed :=
  ⟨⟨_, rfl, rfl⟩, ⟨_, rfl, rfl⟩, ⟨_, rfl, rfl⟩, _,
    transmit_ready _ _ (by decide) (built_output 0x01) (by decide) rfl, rfl, by decide⟩

/-- A builder, and a decoding operation on the longest reply of the statement. -/
theorem witness_OutputsFitTheBuffer :
    (∃ t, runEvent (.op 0x01) (loaded 0x02 0 0 []) = .next t) ∧
    ∃ s t : State, s.codec.ilen.toNat = 263 ∧ runEvent (.op 0x05) s = .next t :=
  have ⟨s, _, h, hl, _⟩ := longest_zeros 263 (.inl rfl)
  ⟨⟨_, rfl⟩, s, _, (inputIs_length h).trans hl, operate_input 0x05 (fun _ raw c => decodeRaw raw c) s _ h⟩

end Sys2Proof.Tests
end

/-! ## Proofs: spec/00_scope.md

The checksum (O6), what an operation's results depend on (O16), and the parameters and the wire over a step (O56). -/

namespace Sys2Proof.Machine

/-! ### The checksum (R13) -/

theorem sum8_toNat (bs : List Byte) : (sum8 bs).toNat = (bs.map BitVec.toNat).sum % 256 := by
  induction bs with
  | nil => rfl
  | cons b bs ih => simp only [sum8_cons, BitVec.toNat_add, ih, List.map_cons, List.sum_cons]; omega

theorem sum8_append (bs cs : List Byte) : sum8 (bs ++ cs) = sum8 bs + sum8 cs := by
  induction bs with
  | nil => simp
  | cons b bs ih => rw [List.cons_append, sum8_cons, sum8_cons, ih, BitVec.add_assoc]

/-- A sum of numbers does not depend on their order, and the checksum is one. -/
theorem sum8_perm {bs cs : List Byte} (h : bs.Perm cs) : sum8 bs = sum8 cs := by
  apply BitVec.eq_of_toNat_eq
  rw [sum8_toNat, sum8_toNat, (h.map BitVec.toNat).sum_eq]

/-- Settles O6. -/
theorem checksumIsAdditive : Obligations.ChecksumIsAdditive :=
  ⟨sum8_toNat, sum8_append, fun _ _ => sum8_perm⟩

/-! ### What an operation's rule reads

A rule is given its input bytes; it neither reads `IBUF` itself nor writes it. -/

/-- The rule does the same to every codec that differs in `IBUF` only, and keeps `IBUF`. -/
def IgnoresIbuf (rule : Codec → Codec) : Prop :=
  ∀ (c : Codec) (m : Memory), rule { c with ibuf := m } = { rule c with ibuf := m }

theorem buildFrame_ignoresIbuf (payload : List Byte) : IgnoresIbuf (buildFrame payload) := by
  intro c m
  simp only [buildFrame]
  split <;> rfl

theorem encodePathOnly_ignoresIbuf (p : Config) (path : List Byte) : IgnoresIbuf (encodePathOnly p path) := by
  intro c m
  simp only [encodePathOnly]
  split <;> rfl

theorem buildPathFrame_ignoresIbuf (p : Config) (path : List Byte) : IgnoresIbuf (buildPathFrame p path) := by
  intro c m
  simp only [buildPathFrame]
  split <;> rfl

theorem buildCombination_ignoresIbuf (entries : List Byte) : IgnoresIbuf (buildCombination entries) := by
  intro c m
  simp only [buildCombination]
  split
  · rfl
  · split
    · rfl
    · split <;> rfl

/-- The tests of R132 read `ELEN` and the reply only, so what is left is the extraction's part. -/
theorem decodeThen_ignoresIbuf {extract : List Byte → Codec → Codec} (hx : ∀ payload, IgnoresIbuf (extract payload))
    (raw : List Byte) : IgnoresIbuf (decodeThen extract raw) := by
  intro c m
  simp only [decodeThen_eq]
  split
  · exact hx _ (succeed _ _ c) m
  · rfl

theorem extractU16_ignoresIbuf (payload : List Byte) : IgnoresIbuf (extractU16 payload) := by
  intro c m
  simp only [extractU16.eq_def]
  split <;> rfl

theorem extractEnum_ignoresIbuf (members payload : List Byte) : IgnoresIbuf (extractEnum members payload) := by
  intro c m
  simp only [extractEnum.eq_def]
  split <;> rfl

theorem decodeEnum_ignoresIbuf (kind : EnumKind) (p : Config) (raw : List Byte) :
    IgnoresIbuf (decodeEnum kind p raw) :=
  decodeThen_ignoresIbuf (extractEnum_ignoresIbuf _) raw

/-- Every operation but `NOP` is `operate` of its word and of a rule that does not look at `IBUF`. -/
theorem exec_operation_ignoresIbuf (i : Instr) (h : isOperation i) (hn : i ≠ .nop) :
    ∃ body : Config → List Byte → Codec → Codec, (∀ s, exec i s = operate (wordOf i) body s) ∧
      ∀ p input, IgnoresIbuf (body p input) := by
  cases i with
  | nop => exact absurd rfl hn
  | build => exact ⟨_, exec_build, fun _ => buildFrame_ignoresIbuf⟩
  | encpath => exact ⟨_, exec_encpath, encodePathOnly_ignoresIbuf⟩
  | bpath => exact ⟨_, exec_bpath, buildPathFrame_ignoresIbuf⟩
  | bcomb => exact ⟨_, exec_bcomb, fun _ => buildCombination_ignoresIbuf⟩
  | decode => exact ⟨_, exec_decode, fun _ => decodeThen_ignoresIbuf fun _ _ _ => rfl⟩
  | decu16 => exact ⟨_, exec_decu16, fun _ => decodeThen_ignoresIbuf extractU16_ignoresIbuf⟩
  | decenumPlayState => exact ⟨_, exec_decenum .playState, decodeEnum_ignoresIbuf _⟩
  | decenumDevice => exact ⟨_, exec_decenum .device, decodeEnum_ignoresIbuf _⟩
  | decenumEqualizer => exact ⟨_, exec_decenum .equalizer, decodeEnum_ignoresIbuf _⟩
  | decenumCycleMode => exact ⟨_, exec_decenum .cycleMode, decodeEnum_ignoresIbuf _⟩
  | decenumPreviousDirPolicy => exact ⟨_, exec_decenum .previousDirPolicy, decodeEnum_ignoresIbuf _⟩
  | _ => simp [isOperation, portOf] at h

/-! ### Results depend on the operands only (R10) -/

/-- The two states agree on all an operation may read: parameters, operand registers, `IBUF[0..ILEN)`. -/
structure SameOperands (s s' : State) : Prop where
  params : s.params = s'.params
  opc : s.codec.opc = s'.codec.opc
  dev : s.codec.dev = s'.codec.dev
  elen : s.codec.elen = s'.codec.elen
  ilen : s.codec.ilen = s'.codec.ilen
  ibuf : ∀ a, a < s.codec.ilen.toNat → memRead s.codec.ibuf a = memRead s'.codec.ibuf a

/-- Step 1 of an operation clears what the two histories left in the registers (R35): only `IBUF` may still differ. -/
theorem SameOperands.beginOp_eq {s s' : State} (h : SameOperands s s') (w : Byte) :
    beginOp w s'.codec = { beginOp w s.codec with ibuf := s'.codec.ibuf } := by
  simp only [beginOp, h.opc, h.dev, h.elen, h.ilen]

theorem SameOperands.read_eq {s s' : State} (h : SameOperands s s') :
    memReadBytes s'.codec.ibuf 0 s'.codec.ilen.toNat = memReadBytes s.codec.ibuf 0 s.codec.ilen.toNat := by
  rw [← h.ilen]
  exact (memReadBytes_congr _ _ _ h.ibuf).symm

/-- From equal operands an operation stops with the same fault, or ends in codecs that differ in `IBUF` only. -/
theorem operate_sameOperands {s s' : State} (h : SameOperands s s') (w : Byte)
    {body : Config → List Byte → Codec → Codec} (hb : ∀ p input, IgnoresIbuf (body p input)) :
    (∃ f, operate w body s = .fault f ∧ operate w body s' = .fault f) ∨
    ∃ t t', operate w body s = .next t ∧ operate w body s' = .next t' ∧
      t'.codec = { t.codec with ibuf := s'.codec.ibuf } := by
  by_cases hcap : s.params.inCap < s.codec.ilen.toNat
  · have hcap' : s'.params.inCap < s'.codec.ilen.toNat := by rwa [← h.params, ← h.ilen]
    refine .inr ⟨_, _, operate_guard w body s hcap, operate_guard w body s' hcap', ?_⟩
    simp only [endOp_codec, h.beginOp_eq]
    rfl
  · have hle : s.codec.ilen.toNat ≤ s.params.inCap := Nat.not_lt.1 hcap
    have hle' : s'.codec.ilen.toNat ≤ s'.params.inCap := by rwa [← h.params, ← h.ilen]
    cases hr : memReadBytes s.codec.ibuf 0 s.codec.ilen.toNat with
    | none =>
      exact .inl ⟨_, operate_unwritten w body s hle hr, operate_unwritten w body s' hle' (h.read_eq.trans hr)⟩
    | some input =>
      refine .inr ⟨_, _, operate_input w body s input ⟨hle, hr⟩,
        operate_input w body s' input ⟨hle', h.read_eq.trans hr⟩, ?_⟩
      rw [endOp_codec, endOp_codec, h.beginOp_eq, ← h.params, hb]

theorem exec_sameOperands {i : Instr} (hi : isOperation i) {s s' : State} (h : SameOperands s s') :
    (∃ f, exec i s = .fault f ∧ exec i s' = .fault f) ∨
    ∃ t t', exec i s = .next t ∧ exec i s' = .next t' ∧ t'.codec = { t.codec with ibuf := s'.codec.ibuf } := by
  by_cases hn : i = .nop
  · subst hn
    exact .inr ⟨_, _, rfl, rfl, h.beginOp_eq 0x00⟩
  · obtain ⟨body, he, hb⟩ := exec_operation_ignoresIbuf i hi hn
    rw [he, he]
    exact operate_sameOperands h (wordOf i) hb

/-- Settles O16: step 1 leaves two codecs that differ in `IBUF` only, and no rule looks at `IBUF` beyond its input. -/
theorem resultsDependOnOperandsOnly : Obligations.ResultsDependOnOperandsOnly := by
  intro i s s' hi hparams hopc hdev helen hilen hibuf
  rcases exec_sameOperands hi ⟨hparams, hopc, hdev, helen, hilen, hibuf⟩ with hf | ⟨t, t', ht, ht', hc⟩
  · exact .inl hf
  · exact .inr ⟨t, t', ht, ht', by simp [hc]⟩

/-! ### Inversion of the shared operations -/

theorem andThen_eq_next_iff {r : Result} {k : State → Result} {t : State} :
    andThen r k = .next t ↔ ∃ u, r = .next u ∧ k u = .next t := by
  cases r <;> simp

theorem loadInput_eq_next_iff {bytes : List Byte} {s t : State} :
    loadInput bytes s = .next t ↔ bytes.length ≤ s.params.inCap ∧
      t = { s with codec := { s.codec with
        ibuf := memWriteBytes s.codec.ibuf 0 bytes
        ilen := BitVec.ofNat 16 bytes.length } } := by
  rw [loadInput]
  split <;> simp [*, eq_comm]

theorem writeInput_eq_next_iff {i : Nat} {b : Byte} {s t : State} :
    writeInput i b s = .next t ↔ i < s.params.inCap ∧
      t = { s with codec := { s.codec with ibuf := memWrite s.codec.ibuf i b } } := by
  rw [writeInput]
  split <;> simp [*, eq_comm]

theorem receive_eq_next_iff {n : Nat} {s t : State} :
    receive n s = .next t ↔ (1 ≤ n ∧ n ≤ s.params.inCap) ∧ t = afterReceive n s := by
  rw [receive]
  split <;> simp [*, eq_comm]

theorem readReply_eq_next_iff {n : Nat} {w : Byte} {body : Config → List Byte → Codec → Codec} {s t : State} :
    readReply n w body s = .next t ↔ n ≤ s.params.inCap ∧ ∃ u,
      u = afterReceive n { s with codec := { s.codec with elen := BitVec.ofNat 16 n } } ∧
      t = endOp w (body u.params (delivered n s.link) (beginOp w u.codec)) u := by
  rw [readReply]
  split <;> simp [*, eq_comm]

/-! ### The parameters and the wire (R7, R62) -/

/-- From `s` to `t` the parameters are the same and the wire has at most grown at its end. -/
structure WireGrows (s t : State) : Prop where
  params : t.params = s.params
  wire : s.link.wire <+: t.link.wire

theorem WireGrows.of_eq {s t : State} (hp : t.params = s.params) (hw : t.link.wire = s.link.wire) : WireGrows s t :=
  ⟨hp, hw ▸ List.prefix_rfl⟩

theorem WireGrows.trans {s t u : State} (h : WireGrows s t) (h' : WireGrows t u) : WireGrows s u :=
  ⟨h'.params.trans h.params, h.wire.trans h'.wire⟩

theorem WireGrows.congr_left {s s' t : State} (h : WireGrows s' t) (hp : s'.params = s.params)
    (hw : s'.link.wire = s.link.wire) : WireGrows s t :=
  ⟨h.params.trans hp, hw ▸ h.wire⟩

theorem operate_wireGrows {w : Byte} {body : Config → List Byte → Codec → Codec} {s t : State}
    (h : operate w body s = .next t) : WireGrows s t := by
  obtain ⟨-, rfl⟩ | ⟨input, -, rfl⟩ := (operate_next_iff w body s t).1 h
  · exact .of_eq rfl rfl
  · exact .of_eq rfl rfl

theorem exec_operation_wireGrows {i : Instr} {s t : State} (h : exec i s = .next t) (hi : isOperation i) :
    WireGrows s t := by
  by_cases hn : i = .nop
  · subst hn
    cases h
    exact .of_eq rfl rfl
  · obtain ⟨body, hexec, -⟩ := exec_operation i hi hn
    exact operate_wireGrows ((hexec s).symm.trans h)

theorem loadInput_wireGrows {bytes : List Byte} {s t : State} (h : loadInput bytes s = .next t) : WireGrows s t := by
  obtain ⟨-, rfl⟩ := loadInput_eq_next_iff.1 h
  exact .of_eq rfl rfl

/-- `TX` is the one action that adds to the wire (R248). -/
theorem transmit_wireGrows {s t : State} (h : transmit s = .next t) : WireGrows s t := by
  obtain ⟨-, -, -, frame, -, rfl⟩ := transmit_next s t h
  exact ⟨rfl, List.prefix_append _ frame⟩

theorem readReply_wireGrows {n : Nat} {w : Byte} {body : Config → List Byte → Codec → Codec} {s t : State}
    (h : readReply n w body s = .next t) : WireGrows s t := by
  obtain ⟨-, u, rfl, rfl⟩ := readReply_eq_next_iff.1 h
  exact .of_eq rfl rfl

theorem commandFrame_wireGrows {opc : Byte} {payload : List Byte} {s t : State}
    (h : commandFrame opc payload s = .next t) : WireGrows s t := by
  obtain ⟨u, hload, hbuild⟩ := andThen_eq_next_iff.1 h
  exact ((loadInput_wireGrows hload).trans (operate_wireGrows hbuild)).congr_left rfl rfl

theorem pathFrame_wireGrows {opc dev : Byte} {path : List Byte} {s t : State}
    (h : pathFrame opc dev path s = .next t) : WireGrows s t := by
  obtain ⟨u, hload, hbuild⟩ := andThen_eq_next_iff.1 h
  exact ((loadInput_wireGrows hload).trans (operate_wireGrows hbuild)).congr_left rfl rfl

theorem execCombinationPlay_wireGrows {entries : List (Byte × Byte)} {s t : State}
    (h : execCombinationPlay entries s = .next t) : WireGrows s t := by
  obtain ⟨u, hload, hbuild⟩ := andThen_eq_next_iff.1 h
  exact (loadInput_wireGrows hload).trans (operate_wireGrows hbuild)

theorem queryFrame_wireGrows {opc : Byte} {n : Nat} {w : Byte} {body : Config → List Byte → Codec → Codec}
    {s t : State} (h : queryFrame opc n w body s = .next t) : WireGrows s t := by
  obtain ⟨v, hsent, hread⟩ := andThen_eq_next_iff.1 h
  obtain ⟨u, hframe, hsend⟩ := andThen_eq_next_iff.1 hsent
  have hdrain : WireGrows u (drainQueue u) := .of_eq rfl rfl
  exact (commandFrame_wireGrows hframe).trans <| hdrain.trans <|
    (transmit_wireGrows hsend).trans (readReply_wireGrows hread)

theorem exec_wireGrows {i : Instr} {s t : State} (h : exec i s = .next t) : WireGrows s t := by
  cases i with
  | nop | build | encpath | bpath | bcomb | decode | decu16
  | decenumPlayState | decenumDevice | decenumEqualizer | decenumCycleMode | decenumPreviousDirPolicy =>
    exact exec_operation_wireGrows h rfl
  | play | pause | stop | previous | next | playByNumber | setDevice | previousDirE | previousDirF
  | stopInterlude | setVolume | volumeUp | volumeDown | setCycleMode | setCycleTimes | setEq
  | endCombinationPlay | select =>
    exact commandFrame_wireGrows ((exec_command _ s _ _ rfl).1.symm.trans h)
  | playByPath | interludeByPath =>
    exact pathFrame_wireGrows ((exec_pathCommand _ s _ _ _ rfl).symm.trans h)
  | combinationPlay => exact execCombinationPlay_wireGrows h
  | queryPlayState | getDevice | getSoundCount | getPlayingSound | getFirstInDir | getSoundCountDir =>
    exact queryFrame_wireGrows h
  | reply5 | reply6 => cases h; exact .of_eq rfl rfl

theorem runCommand_wireGrows {bytes : List Byte} {s t : State} (h : runCommand bytes s = .next t) :
    WireGrows s t := by
  rw [runCommand] at h
  split at h
  · exact exec_wireGrows h
  · cases h

theorem runEvent_wireGrows {e : Event} {s t : State} (h : runEvent e s = .next t) : WireGrows s t := by
  cases e with
  | op w =>
    rw [(writeCtrl_next w s t h).1]
    exact .of_eq rfl rfl
  | wr | rd | drain | reset => cases h; exact .of_eq rfl rfl
  | wb i b =>
    obtain ⟨-, rfl⟩ := writeInput_eq_next_iff.1 h
    exact .of_eq rfl rfl
  | rb i =>
    obtain ⟨-, b, -, rfl⟩ := readOutput_next h
    exact .of_eq rfl rfl
  | tx => exact transmit_wireGrows h
  | rx n =>
    obtain ⟨-, rfl⟩ := receive_eq_next_iff.1 h
    exact .of_eq rfl rfl
  | command bytes => exact runCommand_wireGrows h
  | arrive bytes =>
    cases (runArrival_eq bytes s).symm.trans h
    exact .of_eq rfl rfl

theorem step_wireGrows {s t : State} (h : step s = .next t) : WireGrows s t := by
  rw [step, runNext] at h
  split at h
  · cases h; exact .of_eq rfl rfl
  · exact (runEvent_wireGrows h).congr_left rfl rfl

/-- Settles O56: every event keeps the parameters, and only a `TX`, a query's own included, adds to the wire. -/
theorem parametersFixedAndWireOnlyGrows : Obligations.ParametersFixedAndWireOnlyGrows := by
  intro s t h
  obtain ⟨hparams, sent, hsent⟩ := step_wireGrows h
  exact ⟨hparams, sent, hsent.symm⟩

end Sys2Proof.Machine

/-! ## Proofs: spec/10_state.md

The machine's invariant over a step (O54, O53), what operations keep and leave (O12, O13, O58), what only they write
(O51), reset (O8), the host's register accesses (O47, O48), and which instruction a step runs (O52). -/

namespace Sys2Proof.Machine

/-! ### What only operations and reset write (R34, R60)

Every other access to the codec stays within the operand registers and `IBUF`, and within `IBUF`'s bounds. -/

/-- From `s` to `t` no result register, nor `CTRL` or `OBUF`, has changed, and `IBUF` has kept its canonical form. -/
structure OperandsOnly (s t : State) : Prop where
  params : t.params = s.params
  ctrl : t.codec.ctrl = s.codec.ctrl
  status : t.codec.status = s.codec.status
  olen : t.codec.olen = s.codec.olen
  val : t.codec.val = s.codec.val
  acc : t.codec.acc = s.codec.acc
  obuf : t.codec.obuf = s.codec.obuf
  ibuf_wf : Memory.wf s.params.inCap s.codec.ibuf = true → Memory.wf s.params.inCap t.codec.ibuf = true

theorem OperandsOnly.of_codec_eq {s t : State} (hp : t.params = s.params) (hc : t.codec = s.codec) :
    OperandsOnly s t := by
  constructor <;> simp [hp, hc]

theorem writeRegister_operandsOnly {w : RegWrite} {s t : State} (h : writeRegister w s = .next t) :
    OperandsOnly s t := by
  cases h
  constructor <;> simp

theorem writeInput_operandsOnly {i : Nat} {b : Byte} {s t : State} (h : writeInput i b s = .next t) :
    OperandsOnly s t := by
  obtain ⟨hi, rfl⟩ := writeInput_eq_next_iff.1 h
  exact ⟨rfl, rfl, rfl, rfl, rfl, rfl, rfl, fun hm => memWrite_wf _ _ i b hm hi⟩

theorem loadInput_operandsOnly {bytes : List Byte} {s t : State} (h : loadInput bytes s = .next t) :
    OperandsOnly s t := by
  obtain ⟨hl, rfl⟩ := loadInput_eq_next_iff.1 h
  exact ⟨rfl, rfl, rfl, rfl, rfl, rfl, rfl, fun hm => memWriteBytes_wf _ _ 0 bytes hm (by omega)⟩

/-- `RX <n>` delivers at most `n` bytes, so it stays within `IBUF` (R249). -/
theorem receive_operandsOnly {n : Nat} {s t : State} (h : receive n s = .next t) : OperandsOnly s t := by
  obtain ⟨⟨-, hn⟩, rfl⟩ := receive_eq_next_iff.1 h
  have hd := delivered_length_le n s.link
  exact ⟨rfl, rfl, rfl, rfl, rfl, rfl, rfl, fun hm => memWriteBytes_wf _ _ 0 _ hm (by omega)⟩

theorem transmit_operandsOnly {s t : State} (h : transmit s = .next t) : OperandsOnly s t := by
  obtain ⟨-, -, -, frame, -, rfl⟩ := transmit_next s t h
  exact .of_codec_eq rfl rfl

theorem runEvent_operandsOnly {e : Event} {s t : State} (hop : ∀ w, e ≠ .op w) (hcommand : ∀ bs, e ≠ .command bs)
    (hreset : e ≠ .reset) (h : runEvent e s = .next t) : OperandsOnly s t := by
  cases e with
  | op w => exact absurd rfl (hop w)
  | command bs => exact absurd rfl (hcommand bs)
  | reset => exact absurd rfl hreset
  | wr w => exact writeRegister_operandsOnly h
  | rd | drain => cases h; exact .of_codec_eq rfl rfl
  | wb i b => exact writeInput_operandsOnly h
  | rb i =>
    obtain ⟨-, b, -, rfl⟩ := readOutput_next h
    exact .of_codec_eq rfl rfl
  | tx => exact transmit_operandsOnly h
  | rx n => exact receive_operandsOnly h
  | arrive bytes =>
    cases (runArrival_eq bytes s).symm.trans h
    exact .of_codec_eq rfl rfl

/-- Settles O51: each remaining event writes operand registers or `IBUF` at most. -/
theorem onlyOperationsWriteResults : Obligations.OnlyOperationsWriteResults := by
  intro e s t hop hcommand hreset h
  have hk := runEvent_operandsOnly hop hcommand hreset h
  exact ⟨hk.ctrl, hk.status, hk.olen, hk.val, hk.acc, hk.obuf⟩

/-! ### What an operation word does (R22, R35, R39) -/

/-- Settles O12: an unwritten byte below `ILEN` stops the read of the input, which comes before the operation's rule. -/
theorem unwrittenInputIsAFault : Obligations.UnwrittenInputIsAFault := by
  rintro i s hi hn hcap ⟨a, ha, hread⟩
  obtain ⟨body, hexec, -⟩ := exec_operation i hi hn
  have hnone : memReadBytes s.codec.ibuf 0 s.codec.ilen.toNat = none :=
    (memReadBytes_eq_none_iff _ _ _).2 ⟨a, ha, by rwa [Nat.zero_add]⟩
  rw [hexec, operate_unwritten _ _ _ hcap hnone]

/-- The write of an operation word ends in one of the two outcomes of a rule, from the cleared codec. -/
theorem writeCtrl_ruleOutcome {w : Byte} {s t : State} (h : runEvent (.op w) s = .next t) :
    ruleOutcome (beginOp w s.codec) t.codec (min s.codec.ilen.toNat s.params.inCap) :=
  (writeCtrl_next w s t h).2

/-- Beside the codec the write of an operation word reaches the exchange only (R70, R266). -/
theorem writeCtrl_frame {w : Byte} {s t : State} (h : runEvent (.op w) s = .next t) :
    t.params = s.params ∧ t.link = s.link ∧ t.host = s.host ∧ t.exchange = exchangeAfterOp w s.exchange := by
  rw [(writeCtrl_next w s t h).1]
  exact ⟨rfl, rfl, rfl, rfl⟩

/-- Neither outcome of a rule writes `CTRL`, an operand register or `IBUF`. -/
theorem ruleOutcome_keeps {c r : Codec} {n : Nat} (h : ruleOutcome c r n) :
    r.ctrl = c.ctrl ∧ r.opc = c.opc ∧ r.dev = c.dev ∧ r.elen = c.elen ∧ r.ilen = c.ilen ∧ r.ibuf = c.ibuf := by
  obtain ⟨code, acc, -, rfl⟩ | ⟨out, acc, val, efail, -, -, rfl⟩ := h
  · exact ⟨rfl, rfl, rfl, rfl, rfl, rfl⟩
  · exact ⟨rfl, rfl, rfl, rfl, rfl, rfl⟩

/-- A decoding operation ends the exchange, unless no `RX` has read of the reply yet (R266; log entry 14). -/
theorem exchangeAfterOp_decoding {w : Byte} (h : w ∈ decodingWords) (e : Exchange) :
    exchangeAfterOp w e = if e = .replyDue then .replyDue else .closed := by
  rw [exchangeAfterOp.eq_def, if_pos (List.contains_iff_mem.2 h)]
  cases e <;> rfl

/-- Settles O13: a rule's outcome keeps the operands, and beside the codec there is only the exchange. -/
theorem operationsKeepOperands : Obligations.OperationsKeepOperands := by
  intro w s t h
  obtain ⟨hctrl, hopc, hdev, helen, hilen, hibuf⟩ := ruleOutcome_keeps (writeCtrl_ruleOutcome h)
  obtain ⟨hparams, hlink, hhost, hexchange⟩ := writeCtrl_frame h
  refine ⟨hctrl, ⟨hopc, hdev, helen, hilen, fun a => congrArg (memRead · a) hibuf, hparams, hlink, hhost⟩,
    fun hw => ?_, fun hw => ?_⟩
  · have hother : decodingWords.contains w = false := by simpa [decodingWords] using hw
    exact hexchange.trans (exchangeAfterOp_other hother _)
  · exact hexchange.trans (exchangeAfterOp_decoding hw _)

/-- The bytes of `OBUF` that hold a value are those of the output. -/
theorem outputIs_defined {t : State} {out : List Byte} (h : outputIs t out) (a : Nat) :
    (memRead t.codec.obuf a).isSome = decide (a < t.codec.olen.toNat) := by
  obtain ⟨hlength, hbytes⟩ := h
  rw [hbytes, hlength, Bool.eq_iff_iff, isSome_getElem?, decide_eq_true_iff]

/-- Settles O58: the error exit leaves no output, and a rule's output fits `OBUF` unless it decodes a longer reply. -/
theorem outputsFitTheBuffer : Obligations.OutputsFitTheBuffer := by
  intro w s t h hlong
  suffices hout : ∃ out, out.length ≤ obufCap ∧ outputIs t out by
    obtain ⟨out, hfits, hout⟩ := hout
    exact ⟨hout.1.trans_le hfits, outputIs_defined hout⟩
  obtain ⟨code, acc, -, hcodec⟩ | ⟨out, acc, val, efail, hfits, -, hcodec⟩ := writeCtrl_ruleOutcome h
  · exact ⟨[], Nat.zero_le _, outputIs_nil_of t (by rw [hcodec]; rfl) (by rw [hcodec]; rfl)⟩
  · have hcap : out.length ≤ obufCap := by
      obtain hcap | ⟨hw, hreply⟩ := hfits
      · exact hcap
      · have := hlong hw
        rw [obufCap]
        omega
    exact ⟨out, hcap, outputIs_of_emit t out hcap (by rw [hcodec]; rfl) (by rw [hcodec]; rfl)⟩

/-! ### The invariant (R23, R29, R31, R34, R39, R84, R139, R233) -/

/-- The invariant speaks of no operand register, and of `IBUF` only that it is in canonical form. -/
theorem OperandsOnly.preserves_machineInv {s t : State} (h : OperandsOnly s t) (hs : machineInv s) : machineInv t := by
  obtain ⟨hwf, hibuf, hresults⟩ := hs
  rw [machineInv, codecInv, h.params, h.ctrl, h.status, h.olen, h.val, h.obuf]
  exact ⟨hwf, h.ibuf_wf hibuf, hresults⟩

theorem reset_codecInv (p : Config) : codecInv p Codec.reset := by
  refine ⟨rfl, rfl, fun hlong => absurd hlong (Nat.not_lt_zero _), ?_⟩
  decide

/-- The error exit leaves no output and no value, and `EFAIL` only with `OPSEL` 7 (R233, R139). -/
theorem raiseCode_codecInv {p : Config} {c : Codec} (code : ResultCode) (hibuf : Memory.wf p.inCap c.ibuf = true)
    (hreserved : (decodeWord c.ctrl).toOption = none → code = .badOperand) : codecInv p (raiseCode code c) := by
  obtain ⟨hne5, hne6⟩ := codeNumber_produced code
  have herr : errOf (raiseCode code c).status = codeNumber code := errOf_statusByte _ _
  have hefail : efailOf (raiseCode code c).status = efailOnError c.ctrl := efailOf_statusByte _ _
  refine ⟨hibuf, rfl, fun hlong => absurd hlong (Nat.not_lt_zero _), statusByte_reserved _ _, herr ▸ hne5, herr ▸ hne6,
    fun _ => ⟨rfl, rfl, hefail⟩, fun h7 => ?_, fun hw => ?_⟩
  · exact beq_iff_eq.1 (hefail.symm.trans h7)
  · rw [herr, hreserved hw]
    rfl

/-- A rule that succeeds leaves its output in `OBUF`, as far as it has room, and `OLEN` counts it (R31, R39; log
entry 12). -/
theorem succeed_codecInv {p : Config} {c : Codec} {n : Nat} {out : List Byte} {acc : Byte} {val : Half} {efail : Bool}
    (hibuf : Memory.wf p.inCap c.ibuf = true) (hn : n ≤ p.inCap) (hcap : p.inCap ≤ 65535)
    (hfits : outputFits c n out) (hefail : efail = true → opselOf c.ctrl = 7)
    (hlegal : (decodeWord c.ctrl).toOption ≠ none) :
    codecInv p { succeed out acc c with val := val, status := statusByte .ok efail } := by
  have h259 : obufCap = 259 := rfl
  have hlength : out.length < 65536 := by
    obtain hl | ⟨-, hl⟩ := hfits <;> omega
  have holen : (BitVec.ofNat 16 out.length).toNat = out.length := by
    rw [BitVec.toNat_ofNat, Nat.mod_eq_of_lt hlength]
  have herr : errOf (statusByte .ok efail) = 0 := errOf_statusByte _ _
  refine ⟨hibuf, ?_, fun hlong => ?_, statusByte_reserved _ _, herr ▸ by decide, herr ▸ by decide,
    fun hne => absurd herr hne, fun h7 => ?_, fun hw => absurd hw hlegal⟩
  · rw [succeed_obuf, succeed_olen, memWriteBytes_nil_fst, List.length_take, holen, Nat.min_comm]
  · rw [succeed_olen, holen] at hlong ⊢
    obtain hl | ⟨hw, hl⟩ := hfits
    · omega
    · exact ⟨hw, hl.trans hn⟩
  · exact hefail ((efailOf_statusByte _ _).symm.trans h7)

/-- From every state of the invariant, the write of an operation word, legal or reserved. -/
theorem writeCtrl_machineInv {w : Byte} {s t : State} (hs : machineInv s) (h : runEvent (.op w) s = .next t) :
    machineInv t := by
  obtain ⟨hwf, hibuf, -⟩ := hs
  have hcap : s.params.inCap ≤ 65535 := hwf.2.1
  obtain ⟨hparams, -⟩ := writeCtrl_frame h
  rw [machineInv, hparams]
  refine ⟨hwf, ?_⟩
  by_cases hreserved : (decodeWord w).toOption = none
  · rw [writeCtrl_reserved w s hreserved] at h
    cases h
    exact raiseCode_codecInv .badOperand hibuf fun _ => rfl
  · obtain ⟨code, acc, -, hcodec⟩ | ⟨out, acc, val, efail, hfits, hefail, hcodec⟩ := writeCtrl_ruleOutcome h
    · rw [hcodec]
      exact raiseCode_codecInv code hibuf fun hw => absurd hw hreserved
    · rw [hcodec]
      exact succeed_codecInv hibuf (Nat.min_le_right _ _) hcap hfits hefail hreserved

/-- The operation word of an operation decodes to it (R81). -/
theorem decodeWord_wordOf {i : Instr} (hi : isOperation i) : decodeWord (wordOf i) = .ok i := by
  cases i with
  | nop | build | encpath | bpath | bcomb | decode | decu16
  | decenumPlayState | decenumDevice | decenumEqualizer | decenumCycleMode | decenumPreviousDirPolicy => rfl
  | _ => simp [isOperation, portOf] at hi

theorem exec_operation_machineInv {i : Instr} {s t : State} (hs : machineInv s) (h : exec i s = .next t)
    (hi : isOperation i) : machineInv t :=
  writeCtrl_machineInv hs ((writeCtrl_legal (wordOf i) s i (decodeWord_wordOf hi)).trans h)

/-! A driver-level command is a chain of the operations above (R95), each of which keeps the invariant. -/

theorem loadInput_exec_machineInv {i : Instr} {bytes : List Byte} {s t : State} (hs : machineInv s)
    (h : andThen (loadInput bytes s) (exec i) = .next t) (hi : isOperation i) : machineInv t := by
  obtain ⟨u, hload, hexec⟩ := andThen_eq_next_iff.1 h
  have hu : machineInv u := (loadInput_operandsOnly hload).preserves_machineInv hs
  exact exec_operation_machineInv hu hexec hi

/-- `OPC` is an operand register, so the invariant holds of the state the payload is loaded in. -/
theorem commandFrame_machineInv {opc : Byte} {payload : List Byte} {s t : State} (hs : machineInv s)
    (h : commandFrame opc payload s = .next t) : machineInv t :=
  loadInput_exec_machineInv (i := .build) (s := { s with codec := { s.codec with opc := opc } }) hs h rfl

theorem pathFrame_machineInv {opc dev : Byte} {path : List Byte} {s t : State} (hs : machineInv s)
    (h : pathFrame opc dev path s = .next t) : machineInv t :=
  loadInput_exec_machineInv (i := .bpath) (s := { s with codec := { s.codec with opc := opc, dev := dev } }) hs h rfl

/-- A query is its frame, `DRAIN`, `TX`, `WR ELEN`, `RX` and its decoding operation (R95). -/
theorem exec_query {i d : Instr} {opc : Byte} {n : Nat} (h : queryOf i = some (opc, n, d)) :
    isOperation d ∧ ∀ s, exec i s =
      andThen (andThen (commandFrame opc [] s) fun u => transmit (drainQueue u)) fun v =>
        andThen (receive n { v with codec := { v.codec with elen := BitVec.ofNat 16 n } }) (exec d) := by
  cases i with
  | queryPlayState | getDevice | getSoundCount | getPlayingSound | getFirstInDir | getSoundCountDir =>
    cases h
    refine ⟨rfl, fun s => ?_⟩
    exact congrArg (andThen _) (funext fun v => readReply_eq _ _ _ v (by decide) (by decide))
  | _ => cases h

theorem exec_query_machineInv {i d : Instr} {opc : Byte} {n : Nat} {s t : State} (hq : queryOf i = some (opc, n, d))
    (hs : machineInv s) (h : exec i s = .next t) : machineInv t := by
  obtain ⟨hd, hexec⟩ := exec_query hq
  rw [hexec] at h
  obtain ⟨v, hsent, hread⟩ := andThen_eq_next_iff.1 h
  obtain ⟨u, hframe, htx⟩ := andThen_eq_next_iff.1 hsent
  obtain ⟨r, hrx, hdecode⟩ := andThen_eq_next_iff.1 hread
  have hu : machineInv u := commandFrame_machineInv hs hframe
  have hv : machineInv v := (transmit_operandsOnly htx).preserves_machineInv hu
  have hr : machineInv r := (receive_operandsOnly hrx).preserves_machineInv hv
  exact exec_operation_machineInv hr hdecode hd

theorem exec_machineInv {i : Instr} {s t : State} (hs : machineInv s) (h : exec i s = .next t) : machineInv t := by
  cases i with
  | nop | build | encpath | bpath | bcomb | decode | decu16
  | decenumPlayState | decenumDevice | decenumEqualizer | decenumCycleMode | decenumPreviousDirPolicy =>
    exact exec_operation_machineInv hs h rfl
  | play | pause | stop | previous | next | playByNumber | setDevice | previousDirE | previousDirF
  | stopInterlude | setVolume | volumeUp | volumeDown | setCycleMode | setCycleTimes | setEq
  | endCombinationPlay | select =>
    exact commandFrame_machineInv hs ((exec_command _ s _ _ rfl).1.symm.trans h)
  | playByPath | interludeByPath =>
    exact pathFrame_machineInv hs ((exec_pathCommand _ s _ _ _ rfl).symm.trans h)
  | combinationPlay => exact loadInput_exec_machineInv (i := .bcomb) hs h rfl
  | queryPlayState | getDevice | getSoundCount | getPlayingSound | getFirstInDir | getSoundCountDir =>
    exact exec_query_machineInv rfl hs h
  | reply5 | reply6 => cases h; exact hs

theorem runCommand_machineInv {bytes : List Byte} {s t : State} (hs : machineInv s)
    (h : runCommand bytes s = .next t) : machineInv t := by
  rw [runCommand] at h
  split at h
  · exact exec_machineInv hs h
  · cases h

theorem runEvent_machineInv {e : Event} {s t : State} (hs : machineInv s) (h : runEvent e s = .next t) :
    machineInv t := by
  cases e with
  | op w => exact writeCtrl_machineInv hs h
  | command bytes => exact runCommand_machineInv hs h
  | reset => cases h; exact ⟨hs.1, reset_codecInv s.params⟩
  | wr | rd | wb | rb | drain | tx | rx | arrive =>
    exact (runEvent_operandsOnly (by simp) (by simp) (by simp) h).preserves_machineInv hs

/-! ### Which instruction a step runs (R22, R26) -/

theorem step_idle {s : State} (h : s.host.script = []) : step s = .next s := by
  rw [step, runNext, h]

theorem step_event {s : State} {e : Event} {rest : List Event} (h : s.host.script = e :: rest) :
    step s = runEvent e { s with host := { s.host with script := rest } } := by
  rw [step, runNext, h]

/-- Settles O54: the script is no part of the invariant, and each event keeps it. -/
theorem stepKeepsTheInvariant : Obligations.StepKeepsTheInvariant := by
  intro s t hs h
  cases hscript : s.host.script with
  | nil =>
    cases (step_idle hscript).symm.trans h
    exact hs
  | cons e rest =>
    rw [step_event hscript] at h
    exact runEvent_machineInv (s := { s with host := { s.host with script := rest } }) hs h

/-- Settles O53. -/
theorem resetMeetsTheInvariants : Obligations.ResetMeetsTheInvariants := by
  refine ⟨⟨?_, reset_codecInv _⟩, fun _ holen => absurd rfl holen⟩
  decide

/-- Words put in their position run the instruction they decode to. -/
theorem runEvent_eventOfWords {p : Port} {bytes tail : List Byte} {i : Instr} (h : decode p bytes = .ok (i, tail))
    (s : State) : runEvent (eventOfWords p bytes) s = exec i s := by
  cases p with
  | ctrl =>
    cases bytes with
    | nil => cases h
    | cons w rest =>
      cases hw : decodeWord w with
      | error e => simp [decode, hw, Except.map] at h
      | ok j =>
        obtain ⟨rfl, -⟩ : j = i ∧ rest = tail := by simpa [decode, hw, Except.map] using h
        exact writeCtrl_legal w s j hw
  | driver => rw [eventOfWords, runEvent, runCommand, h]
  | line => rw [eventOfWords, runEvent, runArrival, h]

theorem decodeTableWord_eq_some {nbits w : Nat} {i : Instr} (h : decodeTableWord nbits w = some i) :
    ∃ tail, decode (tableWords nbits w).1 (tableWords nbits w).2 = .ok (i, tail) := by
  rw [decodeTableWord] at h
  split at h
  · rename_i j tail hj
    cases h
    exact ⟨tail, hj⟩
  · cases h

/-- Settles O52: `step` takes the event, and the event's words run what they decode to. -/
theorem stepRunsTheDecodedInstruction : Obligations.StepRunsTheDecodedInstruction := by
  intro s rest i tail
  refine ⟨fun w hs hi => ?_, fun bs hs hi => ?_, fun bs hs hi => ?_, fun e hs => step_event hs, fun nbits w hi => ?_⟩
  · exact (step_event hs).trans (runEvent_eventOfWords hi _)
  · exact (step_event hs).trans (runEvent_eventOfWords hi _)
  · exact (step_event hs).trans (runEvent_eventOfWords hi _)
  · obtain ⟨tail, hwords⟩ := decodeTableWord_eq_some hi
    exact (step_event (withFetchWord_script s nbits w)).trans (runEvent_eventOfWords hwords s)

/-! ### Reset (R43, R260) -/

/-- Settles O8. -/
theorem resetLeavesTheCodecCleared : Obligations.ResetLeavesTheCodecCleared := by
  refine ⟨fun r => ?_, fun a => ⟨rfl, rfl⟩, fun s => ⟨resetCodec s, rfl, rfl, rfl, rfl, rfl, ?_⟩⟩
  · cases r <;> rfl
  · rw [resetCodec_exchange]
    cases s.exchange <;> rfl

/-! ### The host's register accesses (R36, R21) -/

/-- Settles O47: `hostWrite` has an arm for each register, and leaves the read-only ones alone. -/
theorem hostRegisterWrites : Obligations.HostRegisterWrites :=
  fun _ _ _ => ⟨rfl, rfl, rfl, rfl, rfl, rfl, rfl, rfl⟩

theorem zext16_eq_ofNat (b : Byte) : zext16 b = BitVec.ofNat 16 b.toNat := by
  apply BitVec.eq_of_toNat_eq
  simp [zext16]

/-- Settles O48: the host is given what `readReg` says, the byte-wide registers zero-extended. -/
theorem hostRegisterReads : Obligations.HostRegisterReads := by
  intro s r
  refine ⟨giveHost (readReg r s.codec) s, readReg r s.codec, rfl, rfl, ?_⟩
  cases r <;> simp [readReg, zext16_eq_ofNat]

end Sys2Proof.Machine

/-! ## Proofs: spec/30_encoding.md

The decoder and the encoder (O1, O2, O3, O4, O5), reserved operation words (O10), the expansions of R95 and R214 (O41),
the queries (O39), the arrival of replies (O40), and the host's buffer accesses (O49). -/

namespace Sys2Proof.Machine

/-! ### Decode after encode (R80, R85, R90) -/

@[simp] theorem wellFormed_iff (i : Instr) : i.wellFormed = true ↔ i.operandBytes ≤ 255 := decide_eq_true_iff

/-- The words of a command, whatever follows them: the length byte gives the decoder the operand's length. -/
theorem decode_commandWords_append (opc : Byte) (payload rest : List Byte) (h : payload.length ≤ 255) :
    decode .driver (commandWords opc payload ++ rest) = decodeOpcode opc payload.length (payload ++ rest) := by
  simp only [decode, decodeCommand, commandWords, List.cons_append, List.nil_append, if_true, lengthByte_toNat _ h]

theorem decode_pathWords_append (opc dev : Byte) (path rest : List Byte) (h : path.length ≤ 255) :
    decode .driver (pathWords opc dev path ++ rest) = decodeOpcode opc path.length (dev :: (path ++ rest)) := by
  simp only [decode, decodeCommand, pathWords, List.cons_append, List.nil_append, if_true, lengthByte_toNat _ h]

/-- In the two positions whose words tell their own end, decoding gives back the instruction and all that follows. -/
theorem decode_encode_append {i : Instr} (h : i.wellFormed = true) (hport : portOf i ≠ .line) (rest : List Byte) :
    decode (portOf i) (encode i ++ rest) = .ok (i, rest) := by
  rw [wellFormed_iff] at h
  cases i with
  | playByNumber p | setDevice p | setVolume p | setCycleMode p | setCycleTimes p | setEq p | select p =>
    exact (decode_commandWords_append _ p rest h).trans (takeOperand_append _ p rest)
  | playByPath dev p | interludeByPath dev p =>
    exact (decode_pathWords_append _ dev p rest h).trans (takeOperand_append _ p rest)
  | combinationPlay es =>
    rw [Instr.operandBytes, ← entryBytes_length] at h
    refine (decode_commandWords_append _ (entryBytes es) rest h).trans ?_
    exact (takeEntries_ok _ _ _ _).2 ⟨es, (entryBytes_length es).symm, rfl, rfl⟩
  | reply5 | reply6 => exact absurd rfl hport
  | _ => rfl

/-- Settles O1: a reply is told by its length alone, every other instruction by `decode_encode_append`. -/
theorem decodeOfEncode : Obligations.DecodeOfEncode := by
  intro i h
  cases i with
  | reply5 | reply6 => rfl
  | _ =>
    rw [← List.append_nil (encode _)]
    exact decode_encode_append h (by simp [portOf]) []

/-! ### Encode after decode (R80, R82, R85, R90) -/

/-- `bs` are the words of `i`, a well-formed instruction of the position `p`, and after them `rest`. -/
structure IsWordsThen (p : Port) (bs : List Byte) (i : Instr) (rest : List Byte) : Prop where
  port : portOf i = p
  wellFormed : i.wellFormed = true
  bytes : bs = encode i ++ rest

theorem isOperation_operandBytes {i : Instr} (h : isOperation i) : i.operandBytes = 0 := by
  cases i with
  | nop | build | encpath | bpath | bcomb | decode | decu16
  | decenumPlayState | decenumDevice | decenumEqualizer | decenumCycleMode | decenumPreviousDirPolicy => rfl
  | _ => cases h

theorem encode_of_decodeWord {w : Byte} {i : Instr} (h : decodeWord w = .ok i) : encode i = [w] := by
  have hinverse := decodeWord_inverse w
  simp only [h, Except.toOption, Option.all_some, Bool.and_eq_true, beq_iff_eq] at hinverse
  exact hinverse.2

theorem decodeCtrl_isWordsThen {bs rest : List Byte} {i : Instr} (h : decode .ctrl bs = .ok (i, rest)) :
    IsWordsThen .ctrl bs i rest := by
  cases bs with
  | nil => cases h
  | cons w tail =>
    cases hw : decodeWord w with
    | error e => simp [decode, hw, Except.map] at h
    | ok j =>
      obtain ⟨rfl, rfl⟩ : j = i ∧ tail = rest := by simpa [decode, hw, Except.map] using h
      obtain ⟨hi, hword⟩ := wordOf_of_decodeWord w j hw
      refine ⟨hi, by simp [isOperation_operandBytes hi], ?_⟩
      rw [encode_of_decodeWord hw, List.singleton_append]

theorem decodeReply_isWordsThen {bs rest : List Byte} {i : Instr} (h : decodeReply bs = .ok (i, rest)) :
    IsWordsThen .line bs i rest := by
  rw [decodeReply.eq_def] at h
  split at h
  · cases h; exact ⟨rfl, rfl, rfl⟩
  · cases h; exact ⟨rfl, rfl, rfl⟩
  · cases h

section
variable {opc n : Byte} {bs rest : List Byte} {i : Instr}

/-- A command whose length byte counts the payload; `operands` is the payload, for a path command after its device
code. -/
theorem command_isWordsThen {payload operands : List Byte} (hn : payload.length = n.toNat) (hp : portOf i = .driver)
    (hw : i.operandBytes = payload.length)
    (he : encode i = header :: opc :: BitVec.ofNat 8 payload.length :: operands) :
    IsWordsThen .driver (header :: opc :: n :: (operands ++ rest)) i rest := by
  refine ⟨hp, ?_, ?_⟩
  · rw [wellFormed_iff, hw, hn]
    exact Nat.le_of_lt_succ n.isLt
  · rw [he, hn, lengthByte_of_toNat]
    rfl

theorem takeNothing_isWordsThen {j : Instr} (h : takeNothing j n.toNat bs = .ok (i, rest)) (hp : portOf j = .driver)
    (hw : j.operandBytes = 0) (he : encode j = commandWords opc []) :
    IsWordsThen .driver (header :: opc :: n :: bs) i rest := by
  obtain ⟨hn, rfl, rfl⟩ := (takeNothing_ok _ _ _ _ _).1 h
  exact command_isWordsThen (payload := []) hn.symm hp hw he

theorem takeOperand_isWordsThen {mk : List Byte → Instr} (h : takeOperand mk n.toNat bs = .ok (i, rest))
    (hp : ∀ p, portOf (mk p) = .driver) (hw : ∀ p, (mk p).operandBytes = p.length)
    (he : ∀ p, encode (mk p) = commandWords opc p) : IsWordsThen .driver (header :: opc :: n :: bs) i rest := by
  obtain ⟨p, hn, rfl, rfl⟩ := (takeOperand_ok _ _ _ _ _).1 h
  exact command_isWordsThen hn (hp p) (hw p) (he p)

theorem takePath_isWordsThen {mk : Byte → List Byte → Instr} (h : takePath mk n.toNat bs = .ok (i, rest))
    (hp : ∀ dev p, portOf (mk dev p) = .driver) (hw : ∀ dev p, (mk dev p).operandBytes = p.length)
    (he : ∀ dev p, encode (mk dev p) = pathWords opc dev p) :
    IsWordsThen .driver (header :: opc :: n :: bs) i rest := by
  obtain ⟨dev, p, hn, rfl, rfl⟩ := (takePath_ok _ _ _ _ _).1 h
  exact command_isWordsThen hn (hp dev p) (hw dev p) (he dev p)

theorem takeEntries_isWordsThen (h : takeEntries n.toNat bs = .ok (i, rest)) :
    IsWordsThen .driver (header :: 0x1B :: n :: bs) i rest := by
  obtain ⟨es, hn, rfl, rfl⟩ := (takeEntries_ok _ _ _ _).1 h
  exact command_isWordsThen ((entryBytes_length es).trans hn) rfl (entryBytes_length es).symm rfl

/-- Each listed opcode is that of the command it decodes to (R92). In the list's order the 8th and the 21st are the path
commands, the seven after them here carry a payload, the 25th carries entries, and the others carry nothing. -/
theorem decodeOpcode_isWordsThen (h : decodeOpcode opc n.toNat bs = .ok (i, rest)) :
    IsWordsThen .driver (header :: opc :: n :: bs) i rest := by
  rw [← lengthByte_of_toNat opc]
  rw [decodeOpcode.eq_def] at h
  split at h
  case h_28 => cases h
  case h_8 hopc | h_21 hopc =>
    rw [hopc]
    exact takePath_isWordsThen h (fun _ _ => rfl) (fun _ _ => rfl) fun _ _ => rfl
  case h_7 hopc | h_10 hopc | h_18 hopc | h_22 hopc | h_23 hopc | h_24 hopc | h_27 hopc =>
    rw [hopc]
    exact takeOperand_isWordsThen h (fun _ => rfl) (fun _ => rfl) fun _ => rfl
  case h_25 hopc =>
    rw [hopc]
    exact takeEntries_isWordsThen h
  all_goals
    rename_i hopc
    rw [hopc]
    exact takeNothing_isWordsThen h rfl rfl rfl

end

theorem decodeCommand_isWordsThen {bs rest : List Byte} {i : Instr} (h : decodeCommand bs = .ok (i, rest)) :
    IsWordsThen .driver bs i rest := by
  rw [decodeCommand.eq_def] at h
  split at h
  next first opc n tail =>
    split at h
    · subst first; exact decodeOpcode_isWordsThen h
    · cases h
  · cases h

/-- Settles O2, position by position. -/
theorem decodedBytesAreTheEncoding : Obligations.DecodedBytesAreTheEncoding := by
  intro p bs i rest h
  have hwords : IsWordsThen p bs i rest := by
    cases p with
    | ctrl => exact decodeCtrl_isWordsThen h
    | driver => exact decodeCommand_isWordsThen h
    | line => exact decodeReply_isWordsThen h
  exact ⟨hwords.port, hwords.wellFormed, hwords.bytes⟩

/-! ### Operation words (R81, R82, R84) -/

/-- The twelve legal operation words (R82). -/
def legalWords : List Byte :=
  [0x00, 0x01, 0x02, 0x03, 0x04, 0x05, 0x06, 0x07, 0x17, 0x27, 0x37, 0x47]

theorem wordOf_mem_legalWords {i : Instr} (h : isOperation i) : wordOf i ∈ legalWords := by
  cases i with
  | nop | build | encpath | bpath | bcomb | decode | decu16
  | decenumPlayState | decenumDevice | decenumEqualizer | decenumCycleMode | decenumPreviousDirPolicy => decide
  | _ => cases h

/-- A word is legal exactly when it is the word of one of the twelve operations. -/
theorem decodeWord_legal_iff (w : Byte) : (decodeWord w).toOption ≠ none ↔ w ∈ legalWords := by
  constructor
  · intro h
    cases hw : decodeWord w with
    | error e => exact absurd (by rw [hw]; rfl) h
    | ok i =>
      obtain ⟨hi, rfl⟩ := wordOf_of_decodeWord w i hw
      exact wordOf_mem_legalWords hi
  · have hall : ∀ w ∈ legalWords, (decodeWord w).toOption ≠ none := by decide
    exact hall w

/-- Settles O3. -/
theorem twelveLegalOperationWords : Obligations.TwelveLegalOperationWords :=
  ⟨decodeWord_legal_iff, rfl, rfl, rfl, rfl, rfl, rfl, rfl, rfl, rfl, rfl, rfl, rfl⟩

/-- Settles O4: the words evaluate. -/
theorem sampleWordsDecode : Obligations.SampleWordsDecode :=
  ⟨rfl, rfl, rfl, rfl, rfl, rfl, rfl⟩

/-- Settles O10: the answer to a reserved word is the error exit from the cleared codec, with no exchange touched. -/
theorem reservedWordIsBadOperand : Obligations.ReservedWordIsBadOperand := by
  intro w s h
  exact ⟨_, writeCtrl_reserved w s h, rfl, outputIs_nil_of _ rfl rfl, ⟨rfl, rfl, rfl⟩,
    ⟨rfl, rfl, rfl, rfl, fun _ => rfl, rfl, rfl, rfl⟩, rfl⟩

/-! ### Unlisted wire opcodes (R93) -/

/-- The opcodes outside R92's list. -/
def UnlistedOpcode (opc : Byte) : Prop :=
  opc = 0x00 ∨ opc = 0x09 ∨ opc = 0x16 ∨ opc = 0x1D ∨ opc = 0x1E ∨ 0x20 ≤ opc

theorem decodeOpcode_unlisted {opc : Byte} (h : UnlistedOpcode opc) (n : Nat) (rest : List Byte) :
    decodeOpcode opc n rest = .error .unlistedOpcode := by
  simp only [UnlistedOpcode, BitVec.toNat_eq, BitVec.le_def, BitVec.reduceToNat] at h
  rw [decodeOpcode.eq_def]
  split
  case h_28 => rfl
  all_goals omega

/-- Settles O5: the decoder finds no command, and the script's event has no other meaning. -/
theorem unlistedOpcodeIsNoCommand : Obligations.UnlistedOpcodeIsNoCommand := by
  intro opc n rest s h
  have hdecode : decode .driver (0xAA :: opc :: n :: rest) = .error .unlistedOpcode :=
    decodeOpcode_unlisted h n.toNat rest
  exact ⟨hdecode, by rw [runEvent, runCommand, hdecode]⟩

/-! ### The expansions (R94, R95, R214) -/

/-- An operation word and a reply are one event each, their own words in their position. -/
theorem runEvents_words {i : Instr} {s : State} (hw : i.wellFormed = true)
    (he : expansion i = [eventOfWords (portOf i) (encode i)]) : runEvents (expansion i) s = exec i s := by
  rw [he, runEvents_one]
  exact runEvent_eventOfWords (decodeOfEncode i hw) s

theorem runEvents_op {i : Instr} (hi : isOperation i) : runEvents [.op (wordOf i)] = exec i := by
  rw [runEvents_one]
  exact funext fun s => writeCtrl_legal (wordOf i) s i (decodeWord_wordOf hi)

/-- `LDI` and then `OP` (R95). -/
theorem runEvents_ldi_op {i : Instr} (hi : isOperation i) (bytes : List Byte) (s : State) :
    runEvents (scriptLdi bytes ++ [.op (wordOf i)]) s = andThen (loadInput bytes s) (exec i) := by
  rw [runEvents_append, runEvents_scriptLdi, runEvents_op hi]

theorem runEvents_scriptCmd (opc : Byte) (payload : List Byte) (s : State) :
    runEvents (scriptCmd opc payload) s = commandFrame opc payload s :=
  runEvents_ldi_op (i := .build) rfl payload { s with codec := { s.codec with opc := opc } }

theorem runEvents_scriptPathCmd (opc dev : Byte) (path : List Byte) (s : State) :
    runEvents (scriptPathCmd opc dev path) s = pathFrame opc dev path s :=
  runEvents_ldi_op (i := .bpath) rfl path { s with codec := { s.codec with opc := opc, dev := dev } }

theorem runEvents_scriptComb (es : List (Byte × Byte)) (s : State) :
    runEvents (scriptComb es) s = exec (.combinationPlay es) s :=
  runEvents_ldi_op (i := .bcomb) rfl (entryBytes es) s

/-- A query's row of R214, `CMD`, `SEND`, `WR ELEN`, `RX` and the decoding operation one after another (R95). -/
theorem expansion_query {i d : Instr} {opc : Byte} {n : Nat} (hq : queryOf i = some (opc, n, d)) :
    expansion i =
      scriptCmd opc [] ++ scriptSend ++ [.wr (.elen (BitVec.ofNat 16 n)), .rx n] ++ [.op (wordOf d)] := by
  cases i with
  | queryPlayState | getDevice | getSoundCount | getPlayingSound | getFirstInDir | getSoundCountDir =>
    cases hq
    rfl
  | _ => cases hq

theorem runEvents_scriptSend (u : State) : runEvents scriptSend u = transmit (drainQueue u) := andThen_id _

theorem runEvents_elen_rx (n : Nat) (v : State) :
    runEvents [.wr (.elen (BitVec.ofNat 16 n)), .rx n] v =
      receive n { v with codec := { v.codec with elen := BitVec.ofNat 16 n } } := andThen_id _

theorem runEvents_query {i d : Instr} {opc : Byte} {n : Nat} {s : State} (hq : queryOf i = some (opc, n, d)) :
    runEvents (expansion i) s = exec i s := by
  obtain ⟨hd, hexec⟩ := exec_query hq
  rw [expansion_query hq, hexec]
  simp only [runEvents_append, runEvents_scriptCmd, runEvents_op hd, andThen_assoc]
  simp only [runEvents_scriptSend, runEvents_elen_rx]

/-- Settles O41. -/
theorem execIsTheExpansion : Obligations.ExecIsTheExpansion := by
  intro i s
  cases i with
  | nop | build | encpath | bpath | bcomb | decode | decu16
  | decenumPlayState | decenumDevice | decenumEqualizer | decenumCycleMode | decenumPreviousDirPolicy
  | reply5 | reply6 => exact runEvents_words rfl rfl
  | play | pause | stop | previous | next | playByNumber | setDevice | previousDirE | previousDirF
  | stopInterlude | setVolume | volumeUp | volumeDown | setCycleMode | setCycleTimes | setEq
  | endCombinationPlay | select => exact runEvents_scriptCmd _ _ s
  | playByPath | interludeByPath => exact runEvents_scriptPathCmd _ _ _ s
  | combinationPlay es => exact runEvents_scriptComb es s
  | queryPlayState | getDevice | getSoundCount | getPlayingSound | getFirstInDir | getSoundCountDir =>
    exact runEvents_query rfl

/-! ### The queries (R95, R186) -/

/-- A command's frame stands in `OBUF`, unsent: what `BUILD` and the loading of the payload change, and what not. -/
structure FrameBuilt (opc : Byte) (payload : List Byte) (s t : State) : Prop where
  opc_eq : t.codec.opc = opc
  dev : t.codec.dev = s.codec.dev
  ibuf : t.codec.ibuf = memWriteBytes s.codec.ibuf 0 payload
  status : t.codec.status = statusByte .ok false
  output : outputIs t (sealFrame (frameBody opc payload))
  params : t.params = s.params
  link : t.link = s.link
  host : t.host = s.host
  exchange : t.exchange = s.exchange

theorem buildFrame_fits {payload : List Byte} (h : payload.length ≤ 255) (c : Codec) :
    buildFrame payload c = succeed (sealFrame (frameBody c.opc payload)) (sum8 (frameBody c.opc payload)) c :=
  if_neg (Nat.not_lt.2 h)

theorem commandFrame_frameBuilt (opc : Byte) {payload : List Byte} {s : State} (h255 : payload.length ≤ 255)
    (hcap : payload.length ≤ s.params.inCap) :
    ∃ t, commandFrame opc payload s = .next t ∧ FrameBuilt opc payload s t := by
  obtain ⟨v, hload, hinput, hopc, hdev, -, hibuf, hparams, hlink, hhost, hexchange⟩ :=
    loadInput_next payload { s with codec := { s.codec with opc := opc } } hcap (by omega)
  have hbuild : commandFrame opc payload s =
      .next (endOp 0x01 (succeed (sealFrame (frameBody opc payload)) (sum8 (frameBody opc payload))
        (beginOp 0x01 v.codec)) v) := by
    rw [commandFrame, hload, andThen_next, execBuild, operate_input _ _ _ _ hinput, buildFrame_fits h255, beginOp_opc,
      hopc]
  have hfits : (sealFrame (frameBody opc payload)).length ≤ obufCap := by
    rw [sealFrame_length, frameBody_length, obufCap]
    omega
  exact ⟨_, hbuild, hopc, hdev, hibuf, rfl, outputIs_of_emit _ _ hfits rfl rfl, hparams, hlink, hhost, hexchange⟩

theorem sealFrame_empty (opc : Byte) : sealFrame (frameBody opc []) = [0xAA, opc, 0x00, 0xAA + opc] := by
  simp [sealFrame, frameBody, header]

/-- The state after `SEND` (R95) of the frame that `OBUF` holds. -/
def afterSend (frame : List Byte) (u : State) : State :=
  { u with
    link := { u.link with rxq := [], wire := u.link.wire ++ frame }
    exchange := exchangeAfterSend frame }

/-- `SEND` after a command: the `DRAIN` ends every exchange but one whose reply is read and not yet decoded (R267). -/
theorem FrameBuilt.send {opc : Byte} {payload : List Byte} {s u : State} (h : FrameBuilt opc payload s u) :
    transmit (drainQueue u) =
      if s.exchange = .replyRead then .refused .exchangeOpen
      else .next (afterSend (sealFrame (frameBody opc payload)) u) := by
  have herr : errOf (drainQueue u).codec.status = 0 := by rw [drainQueue_codec, h.status]; rfl
  have hexchange : (drainQueue u).exchange = exchangeAfterDrain s.exchange := congrArg exchangeAfterDrain h.exchange
  split
  next hread =>
    have holen : (drainQueue u).codec.olen ≠ 0 := by
      intro hzero
      have hlength := h.output.1
      rw [← drainQueue_codec, hzero, sealFrame_length] at hlength
      cases hlength
    exact transmit_open _ herr holen (by rw [hexchange, hread]; decide)
  next hread =>
    have hclosed : (drainQueue u).exchange = .closed := by
      rw [hexchange]
      cases he : s.exchange with
      | replyRead => exact absurd he hread
      | _ => rfl
    exact transmit_ready (drainQueue u) _ herr h.output (by simp [sealFrame]) hclosed

/-- What the six queries have in common: a command that has a reply, of 5 or 6 bytes, and a decoding operation. -/
theorem queryOf_facts {i d : Instr} {opc : Byte} {n : Nat} (h : queryOf i = some (opc, n, d)) :
    1 ≤ n ∧ n ≤ 6 ∧ d ≠ .nop ∧ decodingWords.contains (wordOf d) = true ∧
      exchangeAfterSend [0xAA, opc, 0x00, 0xAA + opc] = .replyDue := by
  cases i with
  | queryPlayState | getDevice | getSoundCount | getPlayingSound | getFirstInDir | getSoundCountDir =>
    cases h
    decide
  | _ => cases h

/-- On an input that has been written an operation ends, and beside the codec it reaches the exchange only. -/
theorem exec_operation_next {i : Instr} (hi : isOperation i) (hn : i ≠ .nop) {s : State} {input : List Byte}
    (h : inputIs s input) :
    ∃ t, exec i s = .next t ∧ t.link = s.link ∧ t.exchange = exchangeAfterOp (wordOf i) s.exchange := by
  obtain ⟨body, hexec, -⟩ := exec_operation i hi hn
  exact ⟨_, (hexec s).trans (operate_input _ _ _ _ h), rfl, rfl⟩

/-- The state in which a query's decoding operation starts: `WR ELEN` and `RX` after the `SEND`. -/
def beforeDecoding (n : Nat) (frame : List Byte) (u : State) : State :=
  let sent := afterSend frame u
  afterReceive n { sent with codec := { sent.codec with elen := BitVec.ofNat 16 n } }

theorem exec_query_frameBuilt {i d : Instr} {opc : Byte} {n : Nat} {s u : State} (hq : queryOf i = some (opc, n, d))
    (hframe : commandFrame opc [] s = .next u) (hu : FrameBuilt opc [] s u) (hcap : 6 ≤ s.params.inCap) :
    exec i s =
      if s.exchange = .replyRead then .refused .exchangeOpen
      else exec d (beforeDecoding n (sealFrame (frameBody opc [])) u) := by
  obtain ⟨hn1, hn6, -⟩ := queryOf_facts hq
  rw [(exec_query hq).2 s, hframe, andThen_next, hu.send]
  split
  · rfl
  · have hn : n ≤ (afterSend (sealFrame (frameBody opc [])) u).params.inCap :=
      hn6.trans (hcap.trans_eq (congrArg Config.inCap hu.params.symm))
    rw [andThen_next, receive, if_pos ⟨hn1, hn⟩, andThen_next]
    rfl

/-- What the `RX` of a query delivers is the input of its decoding operation. -/
theorem beforeDecoding_inputIs {n : Nat} (frame : List Byte) {u : State} (hcap : n ≤ u.params.inCap)
    (h16 : n ≤ 65535) : inputIs (beforeDecoding n frame u) (delivered n { u.link with rxq := [] }) := by
  have hlength := delivered_length_le n { u.link with rxq := [] }
  exact inputIs_loaded _ u.codec.ibuf _ rfl rfl (hlength.trans hcap) (hlength.trans h16)

theorem exchangeAfterRead_replyDue (k n : Nat) :
    exchangeAfterRead (k == n) .replyDue = if k = n then .replyRead else .replyShort := by
  simp [exchangeAfterRead]

/-- Settles O39: the frame is built and sent, the reply read, and the decoding operation runs on what was delivered. -/
theorem queriesSendReadAndDecode : Obligations.QueriesSendReadAndDecode := by
  intro i d s opc n hq hwf
  have hcap : 256 ≤ s.params.inCap := hwf.1
  obtain ⟨-, hn6, hnop, hdecoding, hdue⟩ := queryOf_facts hq
  obtain ⟨u, hframe, hu⟩ := commandFrame_frameBuilt (payload := []) (s := s) opc (Nat.zero_le _) (Nat.zero_le _)
  have hexec := exec_query_frameBuilt hq hframe hu (by omega)
  rw [sealFrame_empty] at hexec
  refine ⟨fun hread => by rw [hexec, if_pos hread], fun hread => ?_⟩
  rw [if_neg hread] at hexec
  have hinput := beforeDecoding_inputIs [0xAA, opc, 0x00, 0xAA + opc] (n := n) (u := u) (by rw [hu.params]; omega)
    (by omega)
  have hlength := delivered_length_le n { u.link with rxq := [] }
  obtain ⟨t, hdecode, hlink, hexchange⟩ := exec_operation_next (exec_query hq).1 hnop hinput
  rw [← hu.link]
  refine ⟨_, t, _, hexec.trans hdecode, hdecode, hlength, hinput, ?loaded, rfl, hu.opc_eq, hu.dev, rfl, rfl, ?opened,
    ?ended, ?queue, rfl, rfl, hu.params, hu.host, hlink.symm⟩
  case loaded => exact inputLoaded_of _ _ _ (congrArg (memWriteBytes · 0 _) hu.ibuf) rfl (by omega)
  case opened =>
    rw [← exchangeAfterRead_replyDue, ← hdue]
    rfl
  case ended => exact hexchange.trans (exchangeAfterOp_read hdecoding _ _)
  case queue => exact delivered_append_rest n { u.link with rxq := [] }

/-! ### Arrivals and the host's buffer accesses (R40, R90; R30, R31, R60, R94) -/

/-- Settles O40: `exec` of a reply is `arriveBytes` of its words. -/
theorem repliesArriveInTheQueue : Obligations.RepliesArriveInTheQueue :=
  fun _ _ _ _ _ _ _ =>
    ⟨⟨_, rfl, rfl, rfl, rfl, rfl, rfl, rfl, rfl, rfl⟩, _, rfl, rfl, rfl, rfl, rfl, rfl, rfl, rfl, rfl⟩

section
variable {i : Nat} {b : Byte} {s : State}

theorem readOutput_defined (hcap : i < obufCap) (holen : i < s.codec.olen.toNat)
    (hb : memRead s.codec.obuf i = some b) : readOutput i s = .next (giveHost (zext16 b) s) := by
  rw [readOutput, if_neg (Nat.not_le.2 hcap), if_neg (Nat.not_le.2 holen), hb]

theorem readOutput_beyond (hcap : obufCap ≤ i) : readOutput i s = .fault .noOutputIndex :=
  if_pos hcap

theorem readOutput_undefined (hcap : i < obufCap) (h : s.codec.olen.toNat ≤ i ∨ memRead s.codec.obuf i = none) :
    readOutput i s = .fault .unspecifiedOutput := by
  rw [readOutput, if_neg (Nat.not_le.2 hcap)]
  split
  · rfl
  next holen => rw [h.resolve_left holen]

theorem readInput_written (hcap : i < s.params.inCap) (hb : memRead s.codec.ibuf i = some b) :
    readInput i s = .next (giveHost (zext16 b) s) := by
  rw [readInput, if_neg (Nat.not_le.2 hcap), hb]

theorem readInput_unwritten (hcap : i < s.params.inCap) (hb : memRead s.codec.ibuf i = none) :
    readInput i s = .fault .unwrittenInput := by
  rw [readInput, if_neg (Nat.not_le.2 hcap), hb]

theorem readInput_beyond (hcap : s.params.inCap ≤ i) : readInput i s = .fault .noInputIndex :=
  if_pos hcap

theorem writeInput_beyond (hcap : s.params.inCap ≤ i) : writeInput i b s = .fault .noInputIndex :=
  if_neg (Nat.not_lt.2 hcap)

end

/-- A read gives the host the byte, zero-extended, and nothing else changes (R36). -/
theorem giveHost_frame (b : Byte) (s : State) :
    (giveHost (zext16 b) s).host.readback = some (BitVec.ofNat 16 b.toNat) ∧
      (giveHost (zext16 b) s).host.script = s.host.script ∧ (giveHost (zext16 b) s).codec = s.codec ∧
      (giveHost (zext16 b) s).link = s.link ∧ (giveHost (zext16 b) s).params = s.params ∧
      (giveHost (zext16 b) s).exchange = s.exchange :=
  ⟨congrArg some (zext16_eq_ofNat b), rfl, rfl, rfl, rfl, rfl⟩

/-- Settles O49: each access in each of its cases. -/
theorem hostBufferAccesses : Obligations.HostBufferAccesses := by
  intro s i
  refine ⟨fun b hcap holen hb => ⟨_, readOutput_defined hcap holen hb, giveHost_frame b s⟩, readOutput_beyond,
    readOutput_undefined, fun b hcap hb => ⟨_, readInput_written hcap hb, giveHost_frame b s⟩, readInput_unwritten,
    readInput_beyond, fun b hcap => ?_, fun b => writeInput_beyond⟩
  exact ⟨_, writeInput_eq_next_iff.2 ⟨hcap, rfl⟩, memRead_memWrite s.codec.ibuf i b, rfl, rfl, rfl, rfl, rfl⟩

end Sys2Proof.Machine

/-! ## Proofs: spec/40_frame_builder.md

`NOP` and `BUILD` (O17, O18, O19, O20), a command's payload that no length byte can count (O36), and that a built frame
stays sealed over a step (O55). -/

namespace Sys2Proof.Machine

/-! ### `NOP` and `BUILD` (R110, R112, R117) -/

/-- Settles O17: step 1 of an operation is the success of an empty output, and `NOP` has no other step. -/
theorem nopClearsTheResults : Obligations.NopClearsTheResults :=
  fun s => completes_of_succeed .nop s 0x00 false 0 0 [] rfl rfl (Nat.zero_le _)

theorem buildFrame_overlong {payload : List Byte} (h : 255 < payload.length) (c : Codec) :
    buildFrame payload c = raiseCode .invalidPayloadLength c :=
  if_pos h

theorem build_completes_overlongInput {s : State} (h : s.params.inCap < s.codec.ilen.toNat) :
    completes .build s .badOperand false 0 0 [] :=
  completes_of_raise .build s 0x01 .badOperand false 0 ((exec_build s).trans (operate_guard _ _ s h)) rfl rfl

section
variable {s : State} {payload : List Byte} (hinput : inputIs s payload)
include hinput

theorem build_completes_overlongPayload (h : 255 < payload.length) :
    completes .build s .invalidPayloadLength false 0 0 [] := by
  refine completes_of_raise .build s 0x01 .invalidPayloadLength false 0 ?_ rfl rfl
  rw [exec_build, operate_input _ _ _ _ hinput, buildFrame_overlong h]
  rfl

theorem build_completes_frame (h : payload.length ≤ 255) :
    completes .build s .ok false 0 (sum8 (frameBody s.codec.opc payload))
      (sealFrame (frameBody s.codec.opc payload)) := by
  refine completes_of_succeed .build s 0x01 false 0 _ _ ?_ rfl ?_
  · rw [exec_build, operate_input _ _ _ _ hinput, buildFrame_fits h]
    rfl
  · rw [sealFrame_length, frameBody_length, obufCap]
    omega

end

/-- Settles O18. -/
theorem buildMakesTheFrame : Obligations.BuildMakesTheFrame :=
  fun _ => ⟨build_completes_overlongInput, fun _ hinput =>
    ⟨build_completes_overlongPayload hinput, build_completes_frame hinput⟩⟩

/-- Settles O19: `BUILD` on the empty payload, whose frame is `sealFrame_empty`. -/
theorem emptyPayloadChecksum : Obligations.EmptyPayloadChecksum := by
  intro s hilen
  have hframe := build_completes_frame (inputIs_nil hilen) (Nat.zero_le 255)
  have hsum : sum8 (frameBody s.codec.opc []) = 0xAA + s.codec.opc := by simp [frameBody, header]
  rw [sealFrame_empty, hsum] at hframe
  exact ⟨hframe, fun hopc => by rw [hopc]; rfl⟩

/-! ### Frames determine their commands (R120) -/

theorem sealFrame_injective : Function.Injective sealFrame :=
  Function.LeftInverse.injective (g := List.dropLast) sealFrame_dropLast

theorem frameBody_inj {opc opc' : Byte} {payload payload' : List Byte}
    (h : frameBody opc payload = frameBody opc' payload') : opc = opc' ∧ payload = payload' := by
  simp only [frameBody, List.cons_append, List.nil_append, List.cons.injEq] at h
  obtain ⟨-, hopc, -, hpayload⟩ := h
  exact ⟨hopc, hpayload⟩

theorem build_output {s t : State} {payload frame : List Byte} (hinput : inputIs s payload)
    (h255 : payload.length ≤ 255) (hexec : exec .build s = .next t) (hout : outputIs t frame) :
    frame = sealFrame (frameBody s.codec.opc payload) := by
  obtain ⟨t', hexec', -, hframe, -⟩ := build_completes_frame hinput h255
  cases hexec.symm.trans hexec'
  exact outputIs_unique hout hframe

/-- Settles O20: the frame less its checksum is the body, which holds the opcode and the payload. -/
theorem buildFramesAreDistinct : Obligations.BuildFramesAreDistinct := by
  intro s s' t t' p p' frame hp hp' h255 h255' hexec hexec' hout hout'
  have hframe := build_output hp h255 hexec hout
  have hframe' := build_output hp' h255' hexec' hout'
  exact frameBody_inj (sealFrame_injective (hframe.symm.trans hframe'))

/-! ### A command's payload that no length byte can count (R117, R66) -/

/-- Settles O36: the payload is loaded, and `BUILD` rejects it; or it does not fit `IBUF`. -/
theorem overlongCommandPayload : Obligations.OverlongCommandPayload := by
  intro i s opc payload hcommand h255 hwf
  rw [(exec_command i s opc payload hcommand).1, commandFrame]
  refine ⟨fun hcap => ?_, fun hcap => ?_⟩
  · have h16 : payload.length ≤ 65535 := hcap.trans hwf.2.1
    obtain ⟨v, hload, hinput, hopc, hdev, helen, hibuf, hparams, hlink, hhost, hexchange⟩ :=
      loadInput_next payload { s with codec := { s.codec with opc := opc } } hcap h16
    obtain ⟨t, hexec, hctrl, hloaded, hopc', hdev', helen', hparams', hlink', hhost', hout, hresult, hexchange'⟩ :=
      completes_loaded (s := s) hinput hibuf (build_completes_overlongPayload hinput h255)
    rw [hload, andThen_next]
    exact ⟨t, hexec, hctrl, hopc'.trans hopc, hloaded, hout, hresult, hdev'.trans hdev, helen'.trans helen,
      hparams'.trans hparams, hlink'.trans hlink, hhost'.trans hhost,
      hexchange'.trans ((exchangeAfterOp_other rfl _).trans hexchange)⟩
  · rw [loadInput_overflows, andThen_fault]
    exact hcap

/-! ### Built frames stay sealed (R113) -/

/-- Where the results in `t` come from, when `s` was before: they are those of `s`, or reset has cleared them, or the
step ended with the write of an operation word. -/
inductive ResultsFrom (s t : State) : Prop
  | kept (h : OperandsOnly s t)
  | reset (h : t.codec = Codec.reset)
  | operation (w : Byte) (u : State) (h : runEvent (.op w) u = .next t)

theorem exec_operation_resultsFrom {i : Instr} {s u t : State} (h : exec i u = .next t) (hi : isOperation i) :
    ResultsFrom s t :=
  .operation (wordOf i) u ((writeCtrl_legal (wordOf i) u i (decodeWord_wordOf hi)).trans h)

theorem andThen_exec_resultsFrom {r : Result} {i : Instr} {s t : State} (h : andThen r (exec i) = .next t)
    (hi : isOperation i) : ResultsFrom s t := by
  obtain ⟨u, -, hexec⟩ := andThen_eq_next_iff.1 h
  exact exec_operation_resultsFrom hexec hi

theorem exec_query_resultsFrom {i d : Instr} {opc : Byte} {n : Nat} {s t : State} (hq : queryOf i = some (opc, n, d))
    (h : exec i s = .next t) : ResultsFrom s t := by
  obtain ⟨hd, hexec⟩ := exec_query hq
  obtain ⟨v, -, hread⟩ := andThen_eq_next_iff.1 ((hexec s).symm.trans h)
  exact andThen_exec_resultsFrom hread hd

/-- Every driver-level command ends with an operation (R95). -/
theorem exec_resultsFrom {i : Instr} {s t : State} (h : exec i s = .next t) : ResultsFrom s t := by
  cases i with
  | nop | build | encpath | bpath | bcomb | decode | decu16
  | decenumPlayState | decenumDevice | decenumEqualizer | decenumCycleMode | decenumPreviousDirPolicy =>
    exact exec_operation_resultsFrom h rfl
  | play | pause | stop | previous | next | playByNumber | setDevice | previousDirE | previousDirF
  | stopInterlude | setVolume | volumeUp | volumeDown | setCycleMode | setCycleTimes | setEq
  | endCombinationPlay | select =>
    exact andThen_exec_resultsFrom (i := .build) ((exec_command _ s _ _ rfl).1.symm.trans h) rfl
  | playByPath | interludeByPath =>
    exact andThen_exec_resultsFrom (i := .bpath) ((exec_pathCommand _ s _ _ _ rfl).symm.trans h) rfl
  | combinationPlay => exact andThen_exec_resultsFrom (i := .bcomb) h rfl
  | queryPlayState | getDevice | getSoundCount | getPlayingSound | getFirstInDir | getSoundCountDir =>
    exact exec_query_resultsFrom rfl h
  | reply5 | reply6 => cases h; exact .kept (.of_codec_eq rfl rfl)

theorem runEvent_resultsFrom {e : Event} {s t : State} (h : runEvent e s = .next t) : ResultsFrom s t := by
  cases e with
  | op w => exact .operation w s h
  | command bytes =>
    rw [runEvent, runCommand] at h
    split at h
    · exact exec_resultsFrom h
    · cases h
  | reset => cases h; exact .reset rfl
  | wr | rd | wb | rb | drain | tx | rx | arrive =>
    exact .kept (runEvent_operandsOnly (by simp) (by simp) (by simp) h)

/-- From the codec `c` a builder's rule leaves no output, or a sealed frame that `OBUF` holds whole. -/
def NothingOrSealed (c r : Codec) : Prop :=
  r.olen = 0 ∨ ∃ body, body.head? = some header ∧ body.length < obufCap ∧ r = succeed (sealFrame body) (sum8 body) c

theorem buildFrame_nothingOrSealed (payload : List Byte) (c : Codec) : NothingOrSealed c (buildFrame payload c) := by
  obtain h255 | h255 := Nat.lt_or_ge 255 payload.length
  · rw [buildFrame_overlong h255]
    exact .inl rfl
  · rw [buildFrame_fits h255]
    refine .inr ⟨frameBody c.opc payload, rfl, ?_, rfl⟩
    rw [frameBody_length, obufCap]
    omega

theorem buildPathFrame_nothingOrSealed (p : Config) (path : List Byte) (c : Codec) :
    NothingOrSealed c (buildPathFrame p path c) := by
  rw [buildPathFrame]
  split
  · exact .inl rfl
  next out hout =>
    obtain ⟨hlength, hpath⟩ := encodePath_ok_length _ _ _ _ hout
    refine .inr ⟨[header, c.opc] ++ out, rfl, ?_, rfl⟩
    simp only [List.length_append, List.length_cons, List.length_nil, obufCap]
    omega

/-- The running sum of a combination is the sum of all before it, since its entries are whole (R172). -/
theorem buildCombination_nothingOrSealed (entries : List Byte) {c : Codec} (h : c.olen = 0) :
    NothingOrSealed c (buildCombination entries c) := by
  rw [buildCombination]
  split
  · exact .inl h
  split
  · exact .inl rfl
  split
  · exact .inl rfl
  next heven h255 =>
    refine .inr ⟨[header, combOpcode, BitVec.ofNat 8 entries.length] ++ entries, rfl, ?_, ?_⟩
    · simp only [List.length_append, List.length_cons, List.length_nil, obufCap]
      omega
    · simp only [addEntries_eq entries _ (Nat.mod_two_ne_one.1 heven), ← sum8_append, sealFrame]

/-- Reading `OBUF` back gives the frame, and the law of a frame is that of `sealFrame`. -/
theorem NothingOrSealed.frameInv {c : Codec} {t : State} (h : NothingOrSealed c t.codec) : frameInv t := by
  intro _ holen frame hframe
  obtain hnothing | ⟨body, hhead, hlength, hcodec⟩ := h
  · exact absurd hnothing holen
  have hout : outputIs t (sealFrame body) := by
    refine outputIs_of_emit t _ ?_ (by rw [hcodec]; rfl) (by rw [hcodec]; rfl)
    rw [sealFrame_length]
    exact hlength
  obtain rfl : sealFrame body = frame := Option.some.inj ((outputIs_read hout).symm.trans hframe)
  rw [hcodec, succeed_acc, sealFrame_getLast?, sealFrame_dropLast]
  refine ⟨?_, rfl, rfl⟩
  rw [sealFrame, List.head?_append, hhead, Option.some_or]

theorem operate_frameInv {w : Byte} {body : Config → List Byte → Codec → Codec} {s t : State}
    (hbody : ∀ p input, NothingOrSealed (beginOp w s.codec) (body p input (beginOp w s.codec)))
    (h : operate w body s = .next t) : frameInv t := by
  obtain ⟨-, rfl⟩ | ⟨input, -, rfl⟩ := (operate_next_iff w body s t).1 h
  · exact NothingOrSealed.frameInv (c := s.codec) (.inl rfl)
  · exact (hbody s.params input).frameInv

/-- Whatever stood in `OBUF` before: an operation is one of the three builders, or `CTRL` says that it is none. -/
theorem writeCtrl_frameInv {w : Byte} {s t : State} (h : runEvent (.op w) s = .next t) : frameInv t := by
  by_cases hw : w ∈ [(0x01 : Byte), 0x03, 0x04]
  · simp only [List.mem_cons, List.not_mem_nil, or_false] at hw
    obtain rfl | rfl | rfl := hw
    · exact operate_frameInv (fun _ input => buildFrame_nothingOrSealed input _)
        ((writeCtrl_legal _ s .build rfl).symm.trans h)
    · exact operate_frameInv (fun p input => buildPathFrame_nothingOrSealed p input _)
        ((writeCtrl_legal _ s .bpath rfl).symm.trans h)
    · exact operate_frameInv (fun _ input => buildCombination_nothingOrSealed input rfl)
        ((writeCtrl_legal _ s .bcomb rfl).symm.trans h)
  · obtain ⟨hctrl, -⟩ := ruleOutcome_keeps (writeCtrl_ruleOutcome h)
    exact fun hbuilder => absurd (by rwa [hctrl] at hbuilder) hw

theorem ResultsFrom.preserves_frameInv {s t : State} (h : ResultsFrom s t) (hs : frameInv s) : frameInv t := by
  cases h with
  | kept hkept =>
    rw [frameInv, hkept.ctrl, hkept.olen, hkept.obuf, hkept.acc]
    exact hs
  | reset hreset => exact NothingOrSealed.frameInv (c := s.codec) (.inl (by rw [hreset]; rfl))
  | operation w u hop => exact writeCtrl_frameInv hop

/-- Settles O55: the frame is still the one of `s`, or the step ended with an operation, and its own frame is sealed. -/
theorem builtFramesStaySealed : Obligations.BuiltFramesStaySealed := by
  intro s t hs h
  cases hscript : s.host.script with
  | nil =>
    cases (step_idle hscript).symm.trans h
    exact hs
  | cons e rest =>
    exact (runEvent_resultsFrom ((step_event hscript).symm.trans h)).preserves_frameInv hs

end Sys2Proof.Machine

/-! ## Proofs: spec/41_reply_decoder.md

The tests on a reply and what each decoding operation does with them (O27 to O32), its failure with `OPSEL` 7 (O15),
built frames as replies (O33), and single-bit errors (O34). -/

namespace Sys2Proof.Machine

/-! ### A failing operation word with `OPSEL` 7 (R139) -/

/-- Settles O15: of the two outcomes of a rule only the error exit leaves an error, and it clears `VAL`. -/
theorem failedEnumDecodeSetsEfail : Obligations.FailedEnumDecodeSetsEfail := by
  intro w s t h7 h herr
  obtain ⟨code, acc, -, hcodec⟩ | ⟨out, acc, val, efail, -, -, hcodec⟩ := writeCtrl_ruleOutcome h
  · rw [hcodec, raiseCode_status, efailOf_statusByte]
    exact ⟨beq_iff_eq.2 h7, rfl⟩
  · rw [hcodec] at herr
    exact absurd (errOf_statusByte .ok efail) herr

/-! ### The tests of R132 in each decoding operation -/

/-- `i` runs the tests on its input and then `extract` on the payload, and `efail` is what its errors leave in `EFAIL`. -/
structure DecodesWith (i : Instr) (extract : Config → List Byte → Codec → Codec) (efail : Bool) : Prop where
  exec_eq : ∀ s, exec i s = operate (wordOf i) (fun p raw c => decodeThen (extract p) raw c) s
  efail_eq : (opselOf (wordOf i) == 7) = efail

theorem decode_decodesWith : DecodesWith .decode (fun _ _ c => c) false :=
  ⟨exec_decode, rfl⟩

theorem decu16_decodesWith : DecodesWith .decu16 (fun _ => extractU16) false :=
  ⟨exec_decu16, rfl⟩

theorem decenum_decodesWith (kind : EnumKind) :
    DecodesWith (decenumOf kind) (fun p => extractEnum (p.enumTab.members kind)) true :=
  ⟨exec_decenum kind, opsel_decenum kind⟩

/-- Every decoding operation runs the tests first; the operations differ in what they extract. -/
theorem isDecoder_decodesWith {i : Instr} (hi : isDecoder i) :
    ∃ extract, DecodesWith i extract (opselOf (wordOf i) == 7) := by
  obtain rfl | rfl | ⟨kind, rfl⟩ := hi
  · exact ⟨_, decode_decodesWith⟩
  · exact ⟨_, decu16_decodesWith⟩
  · exact ⟨_, (decenum_decodesWith kind).exec_eq, rfl⟩

/-- Settles O29: the length test comes before the sum, and no extraction follows it. -/
theorem shortReplyIsNeverPartlyDecoded : Obligations.ShortReplyIsNeverPartlyDecoded := by
  intro i s raw hi hraw hlength
  obtain ⟨extract, h⟩ := isDecoder_decodesWith hi
  obtain ⟨-, htests⟩ := decoder_outcomes _ _ h.exec_eq _ h.efail_eq s
  obtain ⟨-, hshort, -⟩ := htests raw hraw
  exact hshort hlength

/-! ### The extractions (R136, R138, R142) -/

theorem extractU16_short {payload : List Byte} (h : payload.length < 2) (c : Codec) :
    extractU16 payload c = raiseCode .shortRead c := by
  match payload with
  | [] | [_] => rfl
  | _ :: _ :: _ => simp at h

theorem extractU16_value {payload : List Byte} {hi lo : Byte} (h0 : payload[0]? = some hi) (h1 : payload[1]? = some lo)
    (c : Codec) : extractU16 payload c = { c with val := be16 hi lo } := by
  match payload with
  | [] | [_] => simp at h1
  | _ :: _ :: _ =>
    cases h0
    cases h1
    rfl

theorem extractEnum_value {payload : List Byte} {code : Byte} (h : payload[0]? = some code) (members : List Byte)
    (c : Codec) : extractEnum members payload c =
      { c with val := zext16 code, status := statusByte .ok (!members.contains code) } := by
  match payload with
  | [] => simp at h
  | _ :: _ =>
    cases h
    rfl

/-! ### A reply that passes the tests

The payload is exposed, as far as `OBUF` has room for it, and `ACC` has the sum (R132, R137); then the extraction runs. -/

/-- The codec in which the extraction of `i` starts. -/
def passed (i : Instr) (raw : List Byte) (s : State) : Codec :=
  succeed (replyPayload raw) (sum8 raw.dropLast) (beginOp (wordOf i) s.codec)

/-- The state in which `i` ends when it has extracted `val`. -/
def accepted (i : Instr) (raw : List Byte) (val : Half) (efail : Bool) (s : State) : State :=
  endOp (wordOf i) { passed i raw s with val := val, status := statusByte .ok efail } s

theorem completes_of_accepted {i : Instr} {raw : List Byte} {val : Half} {efail : Bool} {s : State}
    (h : exec i s = .next (accepted i raw val efail s)) (h263 : raw.length ≤ 263) :
    completes i s .ok efail val (sum8 raw.dropLast) (raw.dropLast.drop 3) := by
  refine completes_of_succeed i s _ efail val _ (replyPayload raw) h rfl ?_
  rw [replyPayload_length, obufCap]
  omega

section
variable {s : State} {raw : List Byte} (hraw : inputIs s raw) (helen : s.codec.elen ≠ 0)
  (hlength : s.codec.elen.toNat ≤ raw.length) (hsum : raw.getLast? = some (sum8 raw.dropLast))
include hraw helen hlength hsum

theorem DecodesWith.exec_passed {i : Instr} {extract : Config → List Byte → Codec → Codec} {efail : Bool}
    (h : DecodesWith i extract efail) :
    exec i s = .next (endOp (wordOf i) (extract s.params (replyPayload raw) (passed i raw s)) s) := by
  obtain ⟨-, htests⟩ := decoder_outcomes _ _ h.exec_eq _ h.efail_eq s
  obtain ⟨-, -, -, haccept⟩ := htests raw hraw
  exact haccept helen hlength hsum

/-- A payload too short for the extraction: `ACC` keeps the sum through the error exit (R233). -/
theorem DecodesWith.completes_short {i : Instr} {extract : Config → List Byte → Codec → Codec} {efail : Bool}
    (h : DecodesWith i extract efail)
    (hextract : ∀ c, extract s.params (replyPayload raw) c = raiseCode .shortRead c) :
    completes i s .shortRead efail 0 (sum8 raw.dropLast) [] := by
  refine completes_of_raise i s _ .shortRead efail _ ?_ rfl h.efail_eq
  rw [h.exec_passed hraw helen hlength hsum, hextract]
  rfl

theorem exec_decode_accepted : exec .decode s = .next (accepted .decode raw 0 false s) :=
  decode_decodesWith.exec_passed hraw helen hlength hsum

theorem decu16_completes_short (h6 : raw.length < 6) :
    completes .decu16 s .shortRead false 0 (sum8 raw.dropLast) [] :=
  decu16_decodesWith.completes_short hraw helen hlength hsum
    (extractU16_short (by rw [replyPayload_length]; omega))

theorem exec_decu16_accepted {hi lo : Byte} (hhi : raw[3]? = some hi) (hlo : raw[4]? = some lo) (h6 : 6 ≤ raw.length) :
    exec .decu16 s = .next (accepted .decu16 raw (be16 hi lo) false s) := by
  have h0 : (replyPayload raw)[0]? = some hi := by rw [replyPayload_getElem?, if_pos (by omega), hhi]
  have h1 : (replyPayload raw)[1]? = some lo := by rw [replyPayload_getElem?, if_pos (by omega), hlo]
  rw [decu16_decodesWith.exec_passed hraw helen hlength hsum, extractU16_value h0 h1]
  rfl

theorem decenum_completes_short (kind : EnumKind) (h5 : raw.length < 5) :
    completes (decenumOf kind) s .shortRead true 0 (sum8 raw.dropLast) [] := by
  have hnil : replyPayload raw = [] := List.eq_nil_of_length_eq_zero (by rw [replyPayload_length]; omega)
  exact (decenum_decodesWith kind).completes_short hraw helen hlength hsum fun c => by rw [hnil]; rfl

theorem exec_decenum_accepted (kind : EnumKind) {code : Byte} (hcode : raw[3]? = some code) (h5 : 5 ≤ raw.length) :
    exec (decenumOf kind) s = .next (accepted (decenumOf kind) raw (BitVec.ofNat 16 code.toNat)
      (decide (code ∉ s.params.enumTab.members kind)) s) := by
  have h0 : (replyPayload raw)[0]? = some code := by rw [replyPayload_getElem?, if_pos (by omega), hcode]
  have hunknown : (!(s.params.enumTab.members kind).contains code) = decide (code ∉ s.params.enumTab.members kind) := by
    simp
  rw [(decenum_decodesWith kind).exec_passed hraw helen hlength hsum, extractEnum_value h0, hunknown, zext16_eq_ofNat]
  rfl

end

/-! ### Replies of up to 263 bytes (R132, R136, R138) -/

/-- Settles O27: `DECODE` is the tests alone. -/
theorem decodeChecksTheReply : Obligations.DecodeChecksTheReply := by
  intro s
  obtain ⟨hcap, htests⟩ := decoder_outcomes _ _ decode_decodesWith.exec_eq _ rfl s
  refine ⟨hcap, fun raw hraw => ?_⟩
  obtain ⟨hzero, hshort, hmismatch, -⟩ := htests raw hraw
  simp only [← List.getLast?_eq_getElem?, ← List.dropLast_eq_take]
  exact ⟨hzero, hshort, hmismatch, fun helen hlength hsum =>
    completes_of_accepted (exec_decode_accepted hraw helen hlength hsum)⟩

/-- Settles O30: after the tests two payload bytes are asked for. -/
theorem decu16ExtractsTheValue : Obligations.Decu16ExtractsTheValue := by
  intro s
  obtain ⟨hcap, htests⟩ := decoder_outcomes _ _ decu16_decodesWith.exec_eq _ rfl s
  refine ⟨hcap, fun raw hraw => ?_⟩
  obtain ⟨hzero, hshort, hmismatch, -⟩ := htests raw hraw
  simp only [← List.getLast?_eq_getElem?, ← List.dropLast_eq_take]
  exact ⟨hzero, hshort, hmismatch, decu16_completes_short hraw, fun helen hlength hsum h263 hi lo hhi hlo h6 =>
    completes_of_accepted (exec_decu16_accepted hraw helen hlength hsum hhi hlo h6) h263⟩

/-- Settles O31: after the tests one payload byte is asked for; every error exit leaves `EFAIL` 1, since `OPSEL` is 7. -/
theorem decenumMapsTheStatusByte : Obligations.DecenumMapsTheStatusByte := by
  intro kind s
  obtain ⟨hcap, htests⟩ := decoder_outcomes _ _ (decenum_decodesWith kind).exec_eq _ (opsel_decenum kind) s
  refine ⟨hcap, fun raw hraw => ?_⟩
  obtain ⟨hzero, hshort, hmismatch, -⟩ := htests raw hraw
  simp only [← List.getLast?_eq_getElem?, ← List.dropLast_eq_take]
  exact ⟨hzero, hshort, hmismatch, fun helen hlength hsum => decenum_completes_short hraw helen hlength hsum kind,
    fun helen hlength hsum h263 code hcode h5 =>
      completes_of_accepted (exec_decenum_accepted hraw helen hlength hsum kind hcode h5) h263⟩

/-! ### Longer replies (R135, R137, R66; log entry 12) -/

theorem wordOf_decoder {i : Instr} (hi : isDecoder i) : wordOf i ∈ decodingWords := by
  obtain rfl | rfl | ⟨kind, rfl⟩ := hi
  · decide
  · decide
  · cases kind <;> decide

/-- Six bytes are enough for every extraction. -/
theorem exec_decoder_accepted {i : Instr} (hi : isDecoder i) {s : State} {raw : List Byte} (hraw : inputIs s raw)
    (helen : s.codec.elen ≠ 0) (hlength : s.codec.elen.toNat ≤ raw.length)
    (hsum : raw.getLast? = some (sum8 raw.dropLast)) (h6 : 6 ≤ raw.length) :
    ∃ val efail, exec i s = .next (accepted i raw val efail s) := by
  have h3 : raw[3]? = some raw[3] := List.getElem?_eq_getElem _
  have h4 : raw[4]? = some raw[4] := List.getElem?_eq_getElem _
  obtain rfl | rfl | ⟨kind, rfl⟩ := hi
  · exact ⟨_, _, exec_decode_accepted hraw helen hlength hsum⟩
  · exact ⟨_, _, exec_decu16_accepted hraw helen hlength hsum h3 h4 h6⟩
  · exact ⟨_, _, exec_decenum_accepted hraw helen hlength hsum kind h3 (by omega)⟩

/-- `OBUF` holds the payload bytes that it has room for. -/
theorem accepted_obuf_long {raw : List Byte} (h263 : 263 < raw.length) (i : Instr) (val : Half) (efail : Bool) (s : State)
    (k : Nat) : memRead (accepted i raw val efail s).codec.obuf k = if k < 259 then raw[k + 3]? else none := by
  have hroom : ((replyPayload raw).take obufCap).length = 259 := by
    rw [List.length_take, replyPayload_length, obufCap]
    omega
  change memRead (memWriteBytes [] 0 ((replyPayload raw).take obufCap)) k = _
  rw [memRead_memWriteBytes_zero, hroom]
  split
  · rw [List.getElem?_take_of_lt ‹_›, replyPayload_getElem?, if_pos (by omega)]
  · rfl

theorem accepted_olen {raw : List Byte} (h16 : raw.length < 65536) (i : Instr) (val : Half) (efail : Bool) (s : State) :
    (accepted i raw val efail s).codec.olen.toNat = raw.length - 4 := by
  change (BitVec.ofNat 16 (replyPayload raw).length).toNat = _
  rw [replyPayload_length, BitVec.toNat_ofNat, Nat.mod_eq_of_lt (by omega)]

theorem accepted_efail (i : Instr) (raw : List Byte) (val : Half) (efail : Bool) (s : State) :
    efailOf (accepted i raw val efail s).codec.status = efail :=
  efailOf_statusByte .ok efail

/-- Settles O32: the operation ends in `accepted`, whose `VAL` and `EFAIL` are the ones its own rule extracts. -/
theorem longReplyIsDecoded : Obligations.LongReplyIsDecoded := by
  intro i s raw hi hraw h263 helen hlength hsum
  rw [← List.getLast?_eq_getElem?, ← List.dropLast_eq_take] at hsum
  rw [← List.dropLast_eq_take]
  have h16 : raw.length < 65536 := inputIs_length hraw ▸ s.codec.ilen.isLt
  obtain ⟨val, efail, hexec⟩ := exec_decoder_accepted hi hraw helen hlength hsum (by omega)
  refine ⟨_, hexec, errOf_statusByte _ _, rfl, accepted_olen h16 _ _ _ _, accepted_obuf_long h263 _ _ _ _, rfl,
    ?decode, ?decu16, ?decenum, ⟨rfl, rfl, rfl, rfl, fun _ => rfl, rfl, rfl, rfl⟩,
    exchangeAfterOp_decoding (wordOf_decoder hi) _⟩
  case decode =>
    rintro rfl
    rw [Host.Outcome.next.inj (hexec.symm.trans (exec_decode_accepted hraw helen hlength hsum))]
    exact ⟨rfl, accepted_efail _ _ _ _ _⟩
  case decu16 =>
    rintro rfl hi lo hhi hlo
    rw [Host.Outcome.next.inj (hexec.symm.trans (exec_decu16_accepted hraw helen hlength hsum hhi hlo (by omega)))]
    exact ⟨rfl, accepted_efail _ _ _ _ _⟩
  case decenum =>
    rintro kind rfl code hcode
    rw [Host.Outcome.next.inj
      (hexec.symm.trans (exec_decenum_accepted hraw helen hlength hsum kind hcode (by omega)))]
    exact ⟨rfl, accepted_efail _ _ _ _ _⟩

/-! ### Which replies `DECODE` accepts (R133) -/

/-- `DECODE` leaves the result code of the tests. -/
theorem decodeRaw_errOf (raw : List Byte) (c : Codec) :
    errOf (decodeRaw raw c).status = codeNumber (checkReply c.elen.toNat raw).code := by
  rw [decodeRaw, decodeThen_eq]
  split
  next hok =>
    rw [hok]
    exact errOf_statusByte _ _
  next => exact errOf_statusByte _ _

theorem exec_decode_input {s : State} {raw : List Byte} (hraw : inputIs s raw) :
    ∃ t, exec .decode s = .next t ∧ (errOf t.codec.status = 0 ↔
      s.codec.elen.toNat ≠ 0 ∧ s.codec.elen.toNat ≤ raw.length ∧ raw.getLast? = some (sum8 raw.dropLast)) := by
  refine ⟨_, (exec_decode s).trans (operate_input _ _ _ _ hraw), ?_⟩
  rw [endOp_codec, decodeRaw_errOf, codeNumber_eq_zero, checkReply_code_ok_iff, beginOp_elen]

/-- Settles O28: with enough bytes for `ELEN` only the sum is left to test. -/
theorem decodeAcceptsExactlyMatchingSums : Obligations.DecodeAcceptsExactlyMatchingSums := by
  intro s b hb h1 hlength
  obtain ⟨t, hexec, haccept⟩ := exec_decode_input hb
  refine ⟨t, hexec, haccept.trans ⟨fun ⟨_, _, hsum⟩ => hsum.symm, fun hsum => ⟨?_, hlength, hsum.symm⟩⟩⟩
  omega

/-! ### Frames as replies (R143) -/

/-- The operation words of the three builders. -/
theorem wordOf_builder {i : Instr} (hi : i = .build ∨ i = .bpath ∨ i = .bcomb) :
    isOperation i ∧ wordOf i ∈ [(0x01 : Byte), 0x03, 0x04] ∧ wordOf i ∉ decodingWords := by
  obtain rfl | rfl | rfl := hi <;> exact ⟨rfl, by decide, by decide⟩

/-- A frame that a builder leaves in `OBUF` fits it and passes the tests of `DECODE`, whatever its bytes are (R113). -/
theorem built_frame_sealed {i : Instr} {s t : State} {frame : List Byte} (hi : i = .build ∨ i = .bpath ∨ i = .bcomb)
    (hexec : exec i s = .next t) (hout : outputIs t frame) (hne : frame ≠ []) :
    frame.length ≤ 259 ∧ frame.getLast? = some (sum8 frame.dropLast) ∧ t.codec.acc = sum8 frame.dropLast := by
  obtain ⟨hop, hbuilder, hother⟩ := wordOf_builder hi
  have hrun : runEvent (.op (wordOf i)) s = .next t := (writeCtrl_legal _ s i (decodeWord_wordOf hop)).trans hexec
  obtain ⟨hctrl, -⟩ := ruleOutcome_keeps (writeCtrl_ruleOutcome hrun)
  obtain ⟨hfits, -⟩ := outputsFitTheBuffer _ s t hrun fun hdecoder => absurd hdecoder hother
  have holen : t.codec.olen ≠ 0 := by
    intro hzero
    have hlength := hout.1
    rw [hzero] at hlength
    exact hne (List.eq_nil_of_length_eq_zero hlength.symm)
  obtain ⟨-, hlast, hacc⟩ := writeCtrl_frameInv hrun (by rwa [hctrl]) holen frame (outputIs_read hout)
  exact ⟨hout.1 ▸ hfits, hacc ▸ hlast, hacc⟩

theorem build_ok_length {s t : State} {payload : List Byte} (hinput : inputIs s payload)
    (hexec : exec .build s = .next t) (herr : errOf t.codec.status = 0) : payload.length ≤ 255 := by
  by_contra h255
  obtain ⟨t', hexec', -, -, ⟨hstatus, -⟩, -⟩ := build_completes_overlongPayload hinput (Nat.not_le.1 h255)
  cases hexec.symm.trans hexec'
  rw [hstatus] at herr
  exact absurd herr (by decide)

/-- Settles O33: a built frame is sealed, which is all that `DECODE` asks for. -/
theorem builtFramesDecodeToTheirPayload : Obligations.BuiltFramesDecodeToTheirPayload := by
  intro i s t u input frame hi hinput hexec herr hout hne hframe hmin hlength
  obtain ⟨h259, hlast, hacc⟩ := built_frame_sealed hi hexec hout hne
  have helen : u.codec.elen ≠ 0 := by
    rintro hzero
    rw [hzero] at hmin
    cases hmin
  rw [List.dropLast_drop_eq_drop_dropLast]
  refine ⟨?accepted, ?payload⟩
  case accepted =>
    rw [hacc]
    exact completes_of_accepted (exec_decode_accepted hframe helen hlength hlast) (by omega)
  case payload =>
    rintro rfl
    rw [build_output hinput (build_ok_length hinput hexec herr) hexec hout, sealFrame_dropLast]
    rfl

/-! ### Single-bit errors (R133) -/

/-- Putting one byte in place of another moves the sum by their difference. -/
theorem sum8_set {bs : List Byte} {k : Nat} {b : Byte} (hk : bs[k]? = some b) (b' : Byte) :
    sum8 (bs.set k b') + b = sum8 bs + b' := by
  induction bs generalizing k with
  | nil => simp at hk
  | cons a bs ih =>
    cases k with
    | zero =>
      cases hk
      simp only [List.set_cons_zero, sum8_cons]
      ac_rfl
    | succ k =>
      simp only [List.set_cons_succ, sum8_cons, BitVec.add_assoc]
      rw [ih hk]

/-- One changed byte, whether of the body or the checksum, and the last byte is no longer the sum of the others. -/
theorem not_sealed_set {raw : List Byte} {k : Nat} {b b' : Byte} (hsum : raw.getLast? = some (sum8 raw.dropLast))
    (hk : raw[k]? = some b) (hb : b' ≠ b) : (raw.set k b').getLast? ≠ some (sum8 (raw.set k b').dropLast) := by
  obtain ⟨body, rfl⟩ : ∃ body, raw = sealFrame body := ⟨raw.dropLast, (List.dropLast_append_getLast? _ hsum).symm⟩
  obtain hbody | hchecksum := Nat.lt_or_ge k body.length
  · have hk' : body[k]? = some b := by rwa [sealFrame, List.getElem?_append_left hbody] at hk
    rw [sealFrame, List.set_append_left _ _ hbody, List.getLast?_concat, List.dropLast_concat]
    intro hsame
    have hset := sum8_set hk' b'
    rw [← Option.some.inj hsame] at hset
    exact hb (add_left_cancel hset).symm
  · have hlast : k = body.length := by
      have := (List.getElem?_eq_some_iff.1 hk).1
      rw [sealFrame_length] at this
      omega
    subst hlast
    have hck : b = sum8 body := by
      rw [sealFrame, List.getElem?_concat_length] at hk
      exact (Option.some.inj hk).symm
    rw [sealFrame, List.set_append_right _ _ le_rfl, Nat.sub_self, List.set_cons_zero, List.getLast?_concat,
      List.dropLast_concat]
    exact fun hsame => hb (hck ▸ Option.some.inj hsame)

theorem flip_bit_ne (b : Byte) {j : Nat} (hj : j < 8) : b ^^^ (1#8 <<< j) ≠ b := by
  intro h
  have hbit := congrArg (·.getLsbD j) h
  simp [hj] at hbit

/-- Settles O34: the flipped reply has the length of the accepted one, so it fails at the sum. -/
theorem singleBitErrorIsDetected : Obligations.SingleBitErrorIsDetected := by
  intro s s' t raw k j b hraw hexec herr hk hj helen' hraw'
  obtain ⟨t', hexec', haccept⟩ := exec_decode_input hraw
  cases hexec.symm.trans hexec'
  obtain ⟨helen, hlength, hsum⟩ := haccept.1 herr
  obtain ⟨-, htests⟩ := decoder_outcomes _ _ decode_decodesWith.exec_eq _ rfl s'
  obtain ⟨-, -, hmismatch, -⟩ := htests _ hraw'
  rw [helen', List.length_set] at hmismatch
  exact hmismatch (fun hzero => helen (congrArg BitVec.toNat hzero)) hlength
    (not_sealed_set hsum hk (flip_bit_ne b hj))

end Sys2Proof.Machine

/-! ## Proofs: spec/42_path_encoder.md

What becomes of a path byte (O7), the two path operations (O21, O22), an empty path (O23), and the length byte of an
encoded path (O24). -/

namespace Sys2Proof.Machine

/-! ### Path bytes (R14, R153) -/

theorem upper_letter {c : Byte} (h : 0x61 ≤ c ∧ c ≤ 0x7A) : upper c = c - 0x20 :=
  if_pos h

theorem upper_other {c : Byte} (h : c < 0x61 ∨ 0x7A < c) : upper c = c := by
  refine if_neg fun ⟨hlow, hhigh⟩ => ?_
  obtain hbelow | habove := h
  · exact BitVec.not_le.2 hbelow hlow
  · exact BitVec.not_le.2 habove hhigh

theorem transform_separator {c : Byte} (glyph : Byte) (h : c = dot ∨ c = slash) : transform glyph c = glyph :=
  if_pos h

theorem transform_other {c : Byte} (glyph : Byte) (hdot : c ≠ dot) (hslash : c ≠ slash) :
    transform glyph c = upper c :=
  if_neg (not_or.2 ⟨hdot, hslash⟩)

/-- Settles O7. -/
theorem pathByteTransformation : Obligations.PathByteTransformation :=
  fun glyph _ =>
    ⟨transform_separator glyph,
      fun hdot hslash hlow hhigh => (transform_other glyph hdot hslash).trans (upper_letter ⟨hlow, hhigh⟩),
      fun hdot hslash hother => (transform_other glyph hdot hslash).trans (upper_other hother)⟩

/-! ### The encoder's tests (R88, R152) -/

/-- `new_len` in the words of R152: the path's length and its slashes, less a leading one. -/
theorem newLen_eq_count (first : Byte) (others : List Byte) :
    (first :: others).length + (first :: others).count 0x2F - (if first = 0x2F then 1 else 0) =
      newLen (first :: others) := by
  simp only [newLen, slashes, leading, List.count, List.head?_cons, Option.some.injEq, slash]

theorem encodePath_overlong {first : Byte} {others : List Byte} (glyph dev : Byte)
    (h : 255 < newLen (first :: others) + 1) :
    encodePath glyph dev (first :: others) = .error .invalidPayloadLength :=
  if_pos h

theorem encodePath_fits {first : Byte} {others : List Byte} (glyph dev : Byte)
    (h : newLen (first :: others) + 1 ≤ 255) :
    encodePath glyph dev (first :: others) =
      .ok ([BitVec.ofNat 8 (newLen (first :: others) + 1), dev, first] ++ others.map (transform glyph)) :=
  if_neg (Nat.not_lt.2 h)

/-! ### `ENCPATH` and `BPATH` (R152, R160) -/

/-- `i` encodes its path by the rule `body`, whose error exits are those of the encoder. -/
structure EncodesPath (i : Instr) (body : Config → List Byte → Codec → Codec) : Prop where
  exec_eq : ∀ s, exec i s = operate (wordOf i) body s
  error : ∀ {p path c code}, encodePath p.glyph c.dev path = .error code → body p path c = raiseCode code c
  efail_eq : (opselOf (wordOf i) == 7) = false

theorem encpath_encodesPath : EncodesPath .encpath encodePathOnly where
  exec_eq := exec_encpath
  error h := by rw [encodePathOnly, h]
  efail_eq := rfl

theorem bpath_encodesPath : EncodesPath .bpath buildPathFrame where
  exec_eq := exec_bpath
  error h := by rw [buildPathFrame, h]
  efail_eq := rfl

namespace EncodesPath

variable {i : Instr} {body : Config → List Byte → Codec → Codec} (hi : EncodesPath i body) {s : State}
include hi

theorem completes_overlongInput (h : s.params.inCap < s.codec.ilen.toNat) :
    completes i s .badOperand false 0 0 [] :=
  completes_of_raise i s _ .badOperand false 0 ((hi.exec_eq s).trans (operate_guard _ _ s h)) rfl hi.efail_eq

theorem completes_error {path : List Byte} {code : ResultCode} (hinput : inputIs s path)
    (h : encodePath s.params.glyph s.codec.dev path = .error code) : completes i s code false 0 0 [] := by
  refine completes_of_raise i s _ code false 0 ?_ rfl hi.efail_eq
  rw [hi.exec_eq, operate_input _ _ _ _ hinput, hi.error (by rwa [beginOp_dev])]
  rfl

theorem completes_emptyPath (hinput : inputIs s []) : completes i s .emptyPath false 0 0 [] :=
  hi.completes_error hinput (encodePath_nil _ _)

theorem completes_overlongPath {first : Byte} {others : List Byte} (hinput : inputIs s (first :: others))
    (h : 255 < newLen (first :: others) + 1) : completes i s .invalidPayloadLength false 0 0 [] :=
  hi.completes_error hinput (encodePath_overlong _ _ h)

end EncodesPath

section
variable {s : State} {path out : List Byte} (hinput : inputIs s path)
  (hout : encodePath s.params.glyph s.codec.dev path = .ok out)
include hinput hout

theorem encpath_completes_encoded : completes .encpath s .ok false 0 0 out := by
  obtain ⟨hlength, hpath⟩ := encodePath_ok_length _ _ _ _ hout
  refine completes_of_succeed .encpath s 0x02 false 0 0 out ?_ rfl (by rw [hlength, obufCap]; omega)
  rw [exec_encpath, operate_input _ _ _ _ hinput, encodePathOnly, beginOp_dev, hout]
  rfl

theorem bpath_completes_frame :
    completes .bpath s .ok false 0 (sum8 ([header, s.codec.opc] ++ out))
      (sealFrame ([header, s.codec.opc] ++ out)) := by
  obtain ⟨hlength, hpath⟩ := encodePath_ok_length _ _ _ _ hout
  refine completes_of_succeed .bpath s 0x03 false 0 _ _ ?_ rfl ?_
  · rw [exec_bpath, operate_input _ _ _ _ hinput, buildPathFrame, beginOp_dev, hout]
    rfl
  · simp only [sealFrame_length, List.length_append, List.length_cons, List.length_nil, hlength, obufCap]
    omega

end

/-- Settles O21. -/
theorem encpathEncodesThePath : Obligations.EncpathEncodesThePath := by
  refine fun s => ⟨encpath_encodesPath.completes_overlongInput, encpath_encodesPath.completes_emptyPath,
    fun first others hinput => ?_⟩
  simp only [newLen_eq_count]
  exact ⟨encpath_encodesPath.completes_overlongPath hinput,
    fun hfits => encpath_completes_encoded hinput (encodePath_fits _ _ hfits)⟩

/-- Settles O22: header and opcode before the encoded path are the body of the frame. -/
theorem bpathFramesThePath : Obligations.BpathFramesThePath := by
  refine fun s => ⟨bpath_encodesPath.completes_overlongInput, bpath_encodesPath.completes_emptyPath,
    fun first others hinput => ?_⟩
  simp only [newLen_eq_count]
  exact ⟨bpath_encodesPath.completes_overlongPath hinput,
    fun hfits => bpath_completes_frame hinput (encodePath_fits _ _ hfits)⟩

/-! ### An empty path (R155) -/

/-- After an error there is nothing to send (R248). -/
theorem transmit_error {t : State} (h : errOf t.codec.status ≠ 0) : transmit t = .refused .nothingToSend :=
  if_pos (.inl h)

/-- Settles O23: with `ILEN = 0` no byte of `IBUF` is read, and the encoder's first test fails. -/
theorem emptyPathProducesNothing : Obligations.EmptyPathProducesNothing := by
  intro i s hi hilen
  have hempty : completes i s .emptyPath false 0 0 [] := by
    obtain rfl | rfl := hi
    · exact encpath_encodesPath.completes_emptyPath (inputIs_nil hilen)
    · exact bpath_encodesPath.completes_emptyPath (inputIs_nil hilen)
  refine ⟨hempty, ?_⟩
  obtain ⟨t, hexec, -, -, ⟨hstatus, -⟩, -⟩ := hempty
  rw [hexec, andThen_next, transmit_error (by rw [hstatus]; decide)]

/-! ### The length byte (R88, R157, R158) -/

section
variable {s t : State} {first : Byte} {others : List Byte} (hinput : inputIs s (first :: others))
  (hexec : exec .encpath s = .next t) (herr : errOf t.codec.status = 0)
include hinput hexec herr

theorem encpath_ok_length : newLen (first :: others) + 1 ≤ 255 := by
  by_contra hlong
  obtain ⟨t', hexec', -, -, ⟨hstatus, -⟩, -⟩ :=
    encpath_encodesPath.completes_overlongPath hinput (Nat.not_le.1 hlong)
  cases hexec.symm.trans hexec'
  rw [hstatus] at herr
  exact absurd herr (by decide)

theorem encpath_output {out : List Byte} (hout : outputIs t out) :
    out = [BitVec.ofNat 8 (newLen (first :: others) + 1), s.codec.dev, first] ++
      others.map (transform s.params.glyph) := by
  obtain ⟨t', hexec', -, hencoded, -⟩ :=
    encpath_completes_encoded hinput (encodePath_fits _ _ (encpath_ok_length hinput hexec herr))
  cases hexec.symm.trans hexec'
  exact outputIs_unique hout hencoded

end

/-- Settles O24: the length byte of a path that was encoded does not wrap around. -/
theorem pathLengthByteCountsInnerSlashesTwice : Obligations.PathLengthByteCountsInnerSlashesTwice := by
  intro s t first others out hinput hexec herr hout
  have hfits := encpath_ok_length hinput hexec herr
  rw [encpath_output hinput hexec herr hout]
  have hbyte : (BitVec.ofNat 8 (newLen (first :: others) + 1)).toNat = others.length + 2 + others.count 0x2F := by
    rw [BitVec.toNat_ofNat, Nat.mod_eq_of_lt (by omega), newLen_cons, slash]
    omega
  refine ⟨?length, ?lengthByte, rfl, rfl⟩
  case length => simp
  case lengthByte => simp [hbyte]

end Sys2Proof.Machine

/-! ## Proofs: spec/43_combination_play.md

The stream of `BCOMB` and its errors (O25), and that it is `BUILD` with the constant opcode of a combination (O26). -/

namespace Sys2Proof.Machine

/-! ### The rule of `BCOMB`, test by test (R172 to R175) -/

theorem buildCombination_nil (c : Codec) : buildCombination [] c = { c with status := statusByte .ok false } := rfl

section
variable {entries : List Byte}

theorem buildCombination_odd (hodd : entries.length % 2 = 1) (c : Codec) :
    buildCombination entries c = raiseCode .badOperand c := by
  rw [buildCombination, if_neg (by omega), if_pos hodd]

theorem buildCombination_overlong (heven : entries.length % 2 = 0) (h255 : 255 < entries.length) (c : Codec) :
    buildCombination entries c = raiseCode .invalidPayloadLength c := by
  rw [buildCombination, if_neg (by omega), if_neg (by omega), if_pos h255]

/-- The sum carried on from the header over whole entries is the sum of the body (R13), so the stream is a sealed
frame, as `buildFrame_fits` has it of `BUILD`. -/
theorem buildCombination_fits (hne : entries ≠ []) (heven : entries.length % 2 = 0) (h255 : entries.length ≤ 255)
    (c : Codec) :
    buildCombination entries c =
      succeed (sealFrame (frameBody combOpcode entries)) (sum8 (frameBody combOpcode entries)) c := by
  have hck : addEntries (sum8 [header, combOpcode, BitVec.ofNat 8 entries.length]) entries =
      sum8 (frameBody combOpcode entries) := by
    rw [addEntries_eq entries _ heven, ← sum8_append, frameBody]
  rw [buildCombination, if_neg (mt List.length_eq_zero_iff.1 hne), if_neg (by omega), if_neg (by omega)]
  simp only [hck]
  rfl

end

/-! ### `BCOMB` (R172) -/

theorem bcomb_completes_overlongInput {s : State} (h : s.params.inCap < s.codec.ilen.toNat) :
    completes .bcomb s .badOperand false 0 0 [] :=
  completes_of_raise .bcomb s 0x04 .badOperand false 0 ((exec_bcomb s).trans (operate_guard _ _ s h)) rfl rfl

/-- With no entries only the status is written, which step 1 has cleared: the success of an empty output (R173). -/
theorem bcomb_completes_noEntries {s : State} (hinput : inputIs s []) : completes .bcomb s .ok false 0 0 [] := by
  refine completes_of_succeed .bcomb s 0x04 false 0 0 [] ?_ rfl (Nat.zero_le _)
  rw [exec_bcomb, operate_input _ _ _ _ hinput, buildCombination_nil]
  rfl

section
variable {s : State} {entries : List Byte} (hinput : inputIs s entries)
include hinput

theorem bcomb_completes_error {code : ResultCode} (h : ∀ c, buildCombination entries c = raiseCode code c) :
    completes .bcomb s code false 0 0 [] := by
  refine completes_of_raise .bcomb s 0x04 code false 0 ?_ rfl rfl
  rw [exec_bcomb, operate_input _ _ _ _ hinput, h]
  rfl

theorem exec_bcomb_frame (hne : entries ≠ []) (heven : entries.length % 2 = 0) (h255 : entries.length ≤ 255) :
    exec .bcomb s = .next (endOp 0x04 (succeed (sealFrame (frameBody combOpcode entries))
      (sum8 (frameBody combOpcode entries)) (beginOp 0x04 s.codec)) s) := by
  rw [exec_bcomb, operate_input _ _ _ _ hinput, buildCombination_fits hne heven h255]

theorem bcomb_completes_frame (hne : entries ≠ []) (heven : entries.length % 2 = 0) (h255 : entries.length ≤ 255) :
    completes .bcomb s .ok false 0 (sum8 (frameBody combOpcode entries))
      (sealFrame (frameBody combOpcode entries)) := by
  refine completes_of_succeed .bcomb s 0x04 false 0 _ _ (exec_bcomb_frame hinput hne heven h255) rfl ?_
  rw [sealFrame_length, frameBody_length, obufCap]
  omega

theorem exec_build_frame (h255 : entries.length ≤ 255) :
    exec .build s = .next (endOp 0x01 (succeed (sealFrame (frameBody s.codec.opc entries))
      (sum8 (frameBody s.codec.opc entries)) (beginOp 0x01 s.codec)) s) := by
  rw [exec_build, operate_input _ _ _ _ hinput, buildFrame_fits h255, beginOp_opc]

end

/-- Settles O25. -/
theorem bcombMakesTheStream : Obligations.BcombMakesTheStream := by
  refine fun s => ⟨bcomb_completes_overlongInput, fun entries hinput => ⟨?none, ?odd, ?overlong, ?stream⟩⟩
  case none =>
    rintro rfl
    exact bcomb_completes_noEntries hinput
  case odd => exact fun hodd => bcomb_completes_error hinput (buildCombination_odd hodd)
  case overlong => exact fun heven h255 => bcomb_completes_error hinput (buildCombination_overlong heven h255)
  case stream => exact bcomb_completes_frame hinput

/-! ### `BCOMB` and `BUILD` (R177) -/

/-- Settles O26: from one operand, which the write of `OPC` leaves as it is, both rules succeed with the sealed frame of
the combination's opcode. -/
theorem bcombIsBuildOfTheCombinationOpcode : Obligations.BcombIsBuildOfTheCombinationOpcode := by
  intro s entries hinput heven h2 h254
  have hne : entries ≠ [] := List.ne_nil_of_length_pos (by omega)
  have hbuild : inputIs { s with codec := { s.codec with opc := 0x1B } } entries := hinput
  exact ⟨_, _, exec_bcomb_frame hinput hne heven (by omega), exec_build_frame hbuild (by omega),
    rfl, rfl, rfl, rfl, rfl⟩

end Sys2Proof.Machine

/-! ## Proofs: spec/44_wire_commands.md

The commands that build a frame: by `BUILD` (O35), by `BPATH` (O37) and by `BCOMB` (O38). Each loads its operand and
runs one operation on it. -/

namespace Sys2Proof.Machine

/-! ### One operation on a loaded operand (R95) -/

/-- The state after `WR OPC`, `WR DEV` and the `LDI` of an operand, where the operation of a command starts. -/
def withOperands (opc dev : Byte) (operand : List Byte) (s : State) : State :=
  { s with codec := { s.codec with
    opc := opc
    dev := dev
    ibuf := memWriteBytes s.codec.ibuf 0 operand
    ilen := BitVec.ofNat 16 operand.length } }

/-- All that a command by the operation `i` leaves in `t` beside its results, when `s` was before. -/
structure CommandFrame (i : Instr) (opc dev : Byte) (operand : List Byte) (s t : State) : Prop where
  ctrl : t.codec.ctrl = wordOf i
  opc_eq : t.codec.opc = opc
  dev_eq : t.codec.dev = dev
  loaded : inputLoaded s t operand
  elen : t.codec.elen = s.codec.elen
  params : t.params = s.params
  link : t.link = s.link
  host : t.host = s.host
  exchange : t.exchange = s.exchange

/-- Where an operation completes it leaves the results given, whichever next state `exec` is known to answer. -/
theorem completes.results {i : Instr} {s t : State} {code : ResultCode} {efail : Bool} {val : Half} {acc : Byte}
    {out : List Byte} (h : completes i s code efail val acc out) (hexec : exec i s = .next t) :
    outputIs t out ∧ resultIs t code efail val acc := by
  obtain ⟨t', hexec', -, hout, hresult, -⟩ := h
  cases hexec.symm.trans hexec'
  exact ⟨hout, hresult⟩

section
variable {opc dev : Byte} {operand : List Byte} {s : State} (hwf : s.params.wf)
  (hcap : operand.length ≤ s.params.inCap)
include hwf hcap

theorem withOperands_inputIs : inputIs (withOperands opc dev operand s) operand := by
  obtain ⟨-, h65535, -⟩ := hwf
  exact inputIs_loaded _ s.codec.ibuf operand rfl rfl hcap (hcap.trans h65535)

/-- An operation on a loaded operand ends, and keeps the operand; a decoding operation would reach the exchange too. -/
theorem exec_withOperands {i : Instr} (hi : isOperation i) (hn : i ≠ .nop)
    (hword : decodingWords.contains (wordOf i) = false) :
    ∃ t, exec i (withOperands opc dev operand s) = .next t ∧ CommandFrame i opc dev operand s t := by
  have hinput : inputIs (withOperands opc dev operand s) operand := withOperands_inputIs hwf hcap
  obtain ⟨t, hexec, -, hexchange⟩ := exec_operation_next hi hn hinput
  have hop : runEvent (.op (wordOf i)) (withOperands opc dev operand s) = .next t :=
    (writeCtrl_legal _ _ i (decodeWord_wordOf hi)).trans hexec
  obtain ⟨hctrl, ⟨hopc, hdev, helen, hilen, hibuf, hparams, hlink, hhost⟩, -⟩ := operationsKeepOperands _ _ _ hop
  have hloaded : inputLoaded s t operand :=
    ⟨(congrArg BitVec.toNat hilen).trans (inputIs_length hinput),
      fun a => (hibuf a).trans (memRead_memWriteBytes_zero _ _ a)⟩
  exact ⟨t, hexec, hctrl, hopc, hdev, hloaded, helen, hparams, hlink, hhost,
    hexchange.trans (exchangeAfterOp_other hword _)⟩

end

/-! ### The commands `BUILD` frames (R188 to R213) -/

theorem commandFrame_fits (opc : Byte) {payload : List Byte} {s : State} (hcap : payload.length ≤ s.params.inCap) :
    commandFrame opc payload s = exec .build (withOperands opc s.codec.dev payload s) :=
  congrArg (andThen · execBuild) (loadInput_fits payload { s with codec := { s.codec with opc := opc } } hcap)

/-- Settles O35: `BUILD` seals the command's own words, which are the body of its frame. -/
theorem commandsBuildTheirFrames : Obligations.CommandsBuildTheirFrames := by
  intro i s opc payload hcommand h255 hwf
  obtain ⟨hexec, hwords⟩ := exec_command i s opc payload hcommand
  have hcap : payload.length ≤ s.params.inCap := h255.trans (by omega)
  obtain ⟨t, hbuild, hframe⟩ :=
    exec_withOperands (opc := opc) (dev := s.codec.dev) hwf hcap (i := .build) rfl (by decide) rfl
  obtain ⟨hout, hresult⟩ := (build_completes_frame (withOperands_inputIs hwf hcap) h255).results hbuild
  rw [hexec, hwords, commandFrame_fits opc hcap]
  exact ⟨t, hbuild, hframe.ctrl, hframe.opc_eq, hframe.loaded, hout, hout, hresult, hframe.dev_eq, hframe.elen,
    hframe.params, hframe.link, hframe.host, hframe.exchange⟩

/-! ### The path commands (R194, R207) -/

section
variable (opc dev : Byte) {path : List Byte} {s : State}

theorem pathFrame_fits (hcap : path.length ≤ s.params.inCap) :
    pathFrame opc dev path s = exec .bpath (withOperands opc dev path s) :=
  congrArg (andThen · execBpath)
    (loadInput_fits path { s with codec := { s.codec with opc := opc, dev := dev } } hcap)

theorem pathFrame_overflows (hcap : s.params.inCap < path.length) :
    pathFrame opc dev path s = .fault .noInputIndex :=
  congrArg (andThen · execBpath)
    (loadInput_overflows path { s with codec := { s.codec with opc := opc, dev := dev } } hcap)

end

/-- Settles O37: a path that `IBUF` holds is `BPATH`'s input, and each of its cases is one of `BPATH`'s. -/
theorem pathCommandsFrameThePath : Obligations.PathCommandsFrameThePath := by
  intro i s opc dev path hcommand hwf
  rw [exec_pathCommand i s opc dev path hcommand]
  refine ⟨fun hcap => ?fits, pathFrame_overflows opc dev⟩
  case fits =>
    obtain ⟨t, hbpath, hframe⟩ :=
      exec_withOperands (opc := opc) (dev := dev) hwf hcap (i := .bpath) rfl (by decide) rfl
    have hinput : inputIs (withOperands opc dev path s) path := withOperands_inputIs hwf hcap
    rw [pathFrame_fits opc dev hcap]
    refine ⟨t, hbpath, hframe.ctrl, hframe.opc_eq, hframe.dev_eq, hframe.loaded, hframe.elen, hframe.params,
      hframe.link, hframe.host, hframe.exchange, ?empty, ?nonempty⟩
    case empty =>
      rintro rfl
      exact (bpath_encodesPath.completes_emptyPath hinput).results hbpath
    case nonempty =>
      rintro first others rfl
      simp only [newLen_eq_count]
      exact ⟨fun hlong => (bpath_encodesPath.completes_overlongPath hinput hlong).results hbpath,
        fun hshort => (bpath_completes_frame hinput (encodePath_fits _ _ hshort)).results hbpath⟩

/-! ### `COMBINATION_PLAY` (R211) -/

section
variable {es : List (Byte × Byte)} {s : State}

theorem exec_combinationPlay_fits (hcap : (entryBytes es).length ≤ s.params.inCap) :
    exec (.combinationPlay es) s = exec .bcomb (withOperands s.codec.opc s.codec.dev (entryBytes es) s) :=
  congrArg (andThen · execBcomb) (loadInput_fits (entryBytes es) s hcap)

theorem exec_combinationPlay_overflows (hcap : s.params.inCap < (entryBytes es).length) :
    exec (.combinationPlay es) s = .fault .noInputIndex :=
  congrArg (andThen · execBcomb) (loadInput_overflows (entryBytes es) s hcap)

end

/-- Settles O38: entries come in pairs, so that `BCOMB` never finds an odd length, and 127 entries are the most that a
length byte can count. -/
theorem combinationPlayMakesTheStream : Obligations.CombinationPlayMakesTheStream := by
  intro s es hwf
  have hlength : (entryBytes es).length = 2 * es.length := entryBytes_length es
  have heven : (entryBytes es).length % 2 = 0 := by omega
  rw [← hlength]
  refine ⟨fun hcap => ?fits, exec_combinationPlay_overflows⟩
  case fits =>
    obtain ⟨t, hbcomb, hframe⟩ :=
      exec_withOperands (opc := s.codec.opc) (dev := s.codec.dev) hwf hcap (i := .bcomb) rfl (by decide) rfl
    have hinput : inputIs (withOperands s.codec.opc s.codec.dev (entryBytes es) s) (entryBytes es) :=
      withOperands_inputIs hwf hcap
    rw [exec_combinationPlay_fits hcap]
    refine ⟨t, hbcomb, hframe.ctrl, hframe.loaded, hframe.opc_eq, hframe.dev_eq, hframe.elen, hframe.params,
      hframe.link, hframe.host, hframe.exchange, ?none, fun hlong => ?overlong, fun hne hshort => ?stream⟩
    case none =>
      rintro rfl
      exact (bcomb_completes_noEntries hinput).results hbcomb
    case overlong =>
      exact (bcomb_completes_error hinput (buildCombination_overlong heven (by omega))).results hbcomb
    case stream =>
      exact (bcomb_completes_frame hinput (mt (entryBytes_eq_nil es).1 hne) heven (by omega)).results hbcomb

end Sys2Proof.Machine

/-! ## Proofs: spec/60_exceptions.md

The guard of every operation and its error exit (O11, O14), the empty script (O9), and the transport's three actions:
`DRAIN` (O44), `TX` (O42) and `RX` (O45, O46). -/

namespace Sys2Proof.Machine

/-- Settles O9. -/
theorem nothingHappensByItself : Obligations.NothingHappensByItself :=
  fun _ => step_idle

/-! ### The guard and the error exit (R231, R233) -/

/-- Settles O11: the guard stands in `operate`, before the rule of any operation. -/
theorem overlongInputIsBadOperand : Obligations.OverlongInputIsBadOperand := by
  intro i s hi hn hlong
  obtain ⟨body, hexec, -⟩ := exec_operation i hi hn
  exact completes_of_raise i s (wordOf i) .badOperand _ 0 ((hexec s).trans (operate_guard _ _ s hlong)) rfl rfl

/-- A word that leaves an error has ended in the error exit: the other outcome of a rule leaves `OK`. -/
theorem writeCtrl_error {w : Byte} {s t : State} (h : runEvent (.op w) s = .next t) (herr : errOf t.codec.status ≠ 0) :
    ∃ code acc, t.codec = raiseCode code { beginOp w s.codec with acc := acc } := by
  obtain ⟨code, acc, -, hcodec⟩ | ⟨out, acc, val, efail, -, -, hcodec⟩ := writeCtrl_ruleOutcome h
  · exact ⟨code, acc, hcodec⟩
  · rw [hcodec] at herr
    exact absurd (errOf_statusByte .ok efail) herr

/-- Settles O14: what the error exit clears, and `operationsKeepOperands` for the rest. -/
theorem errorExitLeavesNoOutput : Obligations.ErrorExitLeavesNoOutput := by
  intro w s t h herr
  obtain ⟨hctrl, hkept, -⟩ := operationsKeepOperands w s t h
  obtain ⟨code, acc, hcodec⟩ := writeCtrl_error h herr
  refine ⟨outputIs_nil_of t ?olen ?obuf, ?val, ?efail, hctrl, hkept⟩
  case olen => rw [hcodec, raiseCode_olen]
  case obuf => rw [hcodec, raiseCode_obuf]
  case val => rw [hcodec, raiseCode_val]
  case efail =>
    rw [hcodec, raiseCode_status, efailOf_statusByte]
    rfl

/-! ### `DRAIN` (R247) -/

theorem exchangeAfterDrain_eq (e : Exchange) :
    exchangeAfterDrain e = if e = .replyRead then .replyRead else .closed := by
  cases e <;> rfl

/-- Settles O44. -/
theorem drainEmptiesTheQueue : Obligations.DrainEmptiesTheQueue :=
  fun s => ⟨drainQueue s, rfl, rfl, exchangeAfterDrain_eq _, rfl, rfl, rfl, rfl, rfl, rfl⟩

/-! ### `TX` (R248) -/

section
variable {s : State}

theorem transmit_nothing (h : errOf s.codec.status ≠ 0 ∨ s.codec.olen = 0) : transmit s = .refused .nothingToSend :=
  if_pos h

theorem outputIs_olen_ne_zero {frame : List Byte} (hout : outputIs s frame) (hne : frame ≠ []) : s.codec.olen ≠ 0 := by
  intro hzero
  have hlength := hout.1
  rw [hzero] at hlength
  exact hne (List.eq_nil_of_length_eq_zero hlength.symm)

/-- An output byte without a value stops the read of `OBUF[0..OLEN)` (R39; log entry 12). -/
theorem transmit_undefined {k : Nat} (herr : errOf s.codec.status = 0) (hclosed : s.exchange = .closed)
    (hk : k < s.codec.olen.toNat) (hread : memRead s.codec.obuf k = none) :
    transmit s = .fault .unspecifiedOutput := by
  have holen : s.codec.olen ≠ 0 := by
    intro hzero
    rw [hzero] at hk
    exact Nat.not_lt_zero k hk
  have hnone : memReadBytes s.codec.obuf 0 s.codec.olen.toNat = none :=
    (memReadBytes_eq_none_iff _ _ _).2 ⟨k, hk, by rwa [Nat.zero_add]⟩
  rw [transmit, if_neg (not_or.2 ⟨not_not.2 herr, holen⟩), if_neg (not_not.2 hclosed), hnone]

end

/-- Settles O42: the four ways of `transmit`, one lemma each. -/
theorem txSendsTheOutput : Obligations.TxSendsTheOutput := by
  intro s frame
  refine ⟨transmit_nothing, fun herr hout hne hopen => ?opened, fun herr hclosed ⟨_, hk, hread⟩ => ?undefined,
    fun herr hout hne hclosed => ?sent⟩
  case opened => exact transmit_open s herr (outputIs_olen_ne_zero hout hne) hopen
  case undefined => exact transmit_undefined herr hclosed hk hread
  case sent =>
    exact ⟨_, transmit_ready s frame herr hout hne hclosed, rfl, rfl, rfl, rfl, rfl, rfl, rfl, rfl⟩

/-! ### `RX` (R249) -/

section
variable {s : State} {n : Nat}

theorem runEvent_rx_legal (hn : 1 ≤ n) (hcap : n ≤ s.params.inCap) : runEvent (.rx n) s = .next (afterReceive n s) :=
  if_pos ⟨hn, hcap⟩

theorem runEvent_rx_illegal (h : n = 0 ∨ s.params.inCap < n) : runEvent (.rx n) s = .refused .rxLength :=
  if_neg (by omega)

variable (hwf : s.params.wf) (hcap : n ≤ s.params.inCap)
include hwf hcap

/-- `IN_CAP` is in the reach of `ILEN`, and so is every count that an `RX` delivers (R28; log entry 3). -/
theorem delivered_length_fits : (delivered n s.link).length ≤ s.params.inCap ∧ (delivered n s.link).length ≤ 65535 :=
  have hfits := (delivered_length_le n s.link).trans hcap
  ⟨hfits, hfits.trans hwf.2.1⟩

theorem afterReceive_inputLoaded : inputLoaded s (afterReceive n s) (delivered n s.link) :=
  inputLoaded_of s _ _ rfl rfl (delivered_length_fits hwf hcap).2

theorem afterReceive_inputIs : inputIs (afterReceive n s) (delivered n s.link) :=
  have ⟨hfits, h16⟩ := delivered_length_fits hwf hcap
  inputIs_loaded _ s.codec.ibuf _ rfl rfl hfits h16

end

/-- An exchange whose reply has not been read whole goes on by what this `RX` delivered (R266, R267; log entry 14). -/
theorem exchangeAfterRead_open {e : Exchange} (h : e = .replyDue ∨ e = .replyShort) (k n : Nat) :
    exchangeAfterRead (k == n) e = if k = n then .replyRead else .replyShort := by
  obtain rfl | rfl := h
  · exact exchangeAfterRead_replyDue k n
  · exact exchangeAfterRead_replyDue k n

/-- Settles O45: `delivered` is the front of the queue, and `afterReceive` says what is left of all the rest. -/
theorem rxMovesTheFrontOfTheQueue : Obligations.RxMovesTheFrontOfTheQueue := by
  intro s n hwf
  refine ⟨fun hn hcap => ?legal, runEvent_rx_illegal⟩
  case legal =>
    refine ⟨afterReceive n s, delivered n s.link, (nextAnswer s.link).arrived, runEvent_rx_legal hn hcap,
      delivered_length_le n s.link, afterReceive_inputLoaded hwf hcap, delivered_append_rest n s.link,
      rfl, rfl, rfl, rfl, rfl, rfl, rfl, rfl, rfl, rfl, rfl, rfl, ?closed, ?read, ?opened, rfl, rfl⟩
    case closed => exact fun hclosed => by rw [afterReceive_exchange, hclosed]; rfl
    case read => exact fun hread => by rw [afterReceive_exchange, hread]; rfl
    case opened => exact fun hopen => exchangeAfterRead_open hopen _ n

/-- The answer in which `bytes` arrive, and the timeouts let all of them through. -/
def answerOf (bytes : List Byte) : RxAnswer where
  arrived := bytes
  limit := bytes.length

/-- The state in which the transport's next answer is `a`. -/
def withAnswer (a : RxAnswer) (s : State) : State :=
  { s with link := { s.link with answers := a :: s.link.answers } }

theorem delivered_answerOf {s : State} (hqueue : s.link.rxq = []) {n : Nat} {bytes : List Byte}
    (hlength : bytes.length ≤ n) : delivered n (withAnswer (answerOf bytes) s).link = bytes := by
  have hread : queueAtRead (withAnswer (answerOf bytes) s).link = bytes := congrArg (· ++ bytes) hqueue
  have hcount : actualCount n (withAnswer (answerOf bytes) s).link = bytes.length := by
    rw [actualCount, hread, Nat.min_eq_right hlength]
    exact Nat.min_self bytes.length
  rw [delivered, hread, hcount, List.take_length]

/-- Settles O46: on an empty queue `answerOf bytes` makes the `RX` deliver `bytes`. -/
theorem everyRxOutcomeIsPossible : Obligations.EveryRxOutcomeIsPossible := by
  intro s n bytes hwf hqueue hn hcap hlength
  have hinput := afterReceive_inputIs (s := withAnswer (answerOf bytes) s) hwf hcap
  have hloaded := afterReceive_inputLoaded (s := withAnswer (answerOf bytes) s) hwf hcap
  rw [delivered_answerOf hqueue hlength] at hinput hloaded
  exact ⟨answerOf bytes, _, runEvent_rx_legal hn hcap, hinput, hloaded⟩

end Sys2Proof.Machine

/-! ## Proofs: spec/70_reset_and_hazards.md

Nothing to send after an operation without output (O43), one command in flight (O50), and how an exchange opens and
ends (O57). -/

namespace Sys2Proof.Machine

/-! ### No output (R268) -/

theorem transmit_noOutput {t : State} (hout : outputIs t []) : transmit t = .refused .nothingToSend :=
  transmit_nothing (.inr (BitVec.eq_of_toNat_eq hout.1))

/-- Settles O43: the error exit, `NOP`, and `BCOMB` on no entries each end with the empty output. -/
theorem nothingToSendAfterNoOutput : Obligations.NothingToSendAfterNoOutput := by
  intro w s t h hcase
  suffices hout : outputIs t [] from ⟨hout, transmit_noOutput hout⟩
  obtain herr | rfl | ⟨rfl, hilen⟩ := hcase
  · exact (errorExitLeavesNoOutput w s t h herr).1
  · exact ((nopClearsTheResults s).results ((writeCtrl_legal _ s .nop rfl).symm.trans h)).1
  · have hbcomb := bcomb_completes_noEntries (inputIs_nil hilen)
    exact (hbcomb.results ((writeCtrl_legal _ s .bcomb rfl).symm.trans h)).1

/-! ### How an exchange opens and ends (R266, R267, R274) -/

theorem exec_operation_exchange {i : Instr} {s t : State} (h : exec i s = .next t) (hi : isOperation i) :
    t.exchange = exchangeAfterOp (wordOf i) s.exchange :=
  have ⟨_, _, _, hexchange⟩ := writeCtrl_frame ((writeCtrl_legal _ s i (decodeWord_wordOf hi)).trans h)
  hexchange

/-- Loading an operand and building from it is no part of an exchange. -/
theorem loadInput_exec_exchange {i : Instr} {bytes : List Byte} {s t : State}
    (h : andThen (loadInput bytes s) (exec i) = .next t) (hi : isOperation i)
    (hword : decodingWords.contains (wordOf i) = false) : t.exchange = s.exchange := by
  obtain ⟨u, hload, hexec⟩ := andThen_eq_next_iff.1 h
  obtain ⟨-, rfl⟩ := loadInput_eq_next_iff.1 hload
  exact (exec_operation_exchange hexec hi).trans (exchangeAfterOp_other hword _)

theorem commandFrame_exchange {opc : Byte} {payload : List Byte} {s t : State}
    (h : commandFrame opc payload s = .next t) : t.exchange = s.exchange :=
  loadInput_exec_exchange (i := .build) (s := { s with codec := { s.codec with opc := opc } }) h rfl rfl

theorem pathFrame_exchange {opc dev : Byte} {path : List Byte} {s t : State}
    (h : pathFrame opc dev path s = .next t) : t.exchange = s.exchange :=
  loadInput_exec_exchange (i := .bpath) (s := { s with codec := { s.codec with opc := opc, dev := dev } }) h rfl rfl

/-- A driver-level command that is no query leaves its frame unsent (R214). -/
theorem exec_unsent_exchange {i : Instr} {s t : State} (hport : portOf i = .driver) (hq : queryOf i = none)
    (h : exec i s = .next t) : t.exchange = s.exchange := by
  cases i with
  | play | pause | stop | previous | next | playByNumber | setDevice | previousDirE | previousDirF
  | stopInterlude | setVolume | volumeUp | volumeDown | setCycleMode | setCycleTimes | setEq
  | endCombinationPlay | select =>
    exact commandFrame_exchange ((exec_command _ s _ _ rfl).1.symm.trans h)
  | playByPath | interludeByPath => exact pathFrame_exchange ((exec_pathCommand _ s _ _ _ rfl).symm.trans h)
  | combinationPlay => exact loadInput_exec_exchange (i := .bcomb) h rfl rfl
  | queryPlayState | getDevice | getSoundCount | getPlayingSound | getFirstInDir | getSoundCountDir => cases hq
  | nop | build | encpath | bpath | bcomb | decode | decu16
  | decenumPlayState | decenumDevice | decenumEqualizer | decenumCycleMode | decenumPreviousDirPolicy
  | reply5 | reply6 => cases hport

theorem exchangeAfterDrain_eq_closed {e : Exchange} : exchangeAfterDrain e = .closed ↔ e ≠ .replyRead := by
  cases e <;> decide

/-- A query's own `DRAIN` must end the exchange of before, or its `TX` is refused; its decoding operation ends its own. -/
theorem exec_query_exchange {i d : Instr} {opc : Byte} {n : Nat} {s t : State} (hq : queryOf i = some (opc, n, d))
    (h : exec i s = .next t) : s.exchange ≠ .replyRead ∧ t.exchange = .closed := by
  obtain ⟨hd, hexec⟩ := exec_query hq
  obtain ⟨-, -, -, hdecoding, -⟩ := queryOf_facts hq
  obtain ⟨v, hsent, hread⟩ := andThen_eq_next_iff.1 ((hexec s).symm.trans h)
  obtain ⟨u, hframe, htx⟩ := andThen_eq_next_iff.1 hsent
  obtain ⟨r, hrx, hdecode⟩ := andThen_eq_next_iff.1 hread
  constructor
  · obtain ⟨-, -, hdrained, -⟩ := transmit_next _ _ htx
    rw [← commandFrame_exchange hframe]
    exact exchangeAfterDrain_eq_closed.1 hdrained
  · obtain ⟨-, rfl⟩ := receive_eq_next_iff.1 hrx
    exact (exec_operation_exchange hdecode hd).trans (exchangeAfterOp_read hdecoding _ _)

/-- What an event that takes `s` to `t` has done to the exchange: it is open or closed as before, or one of the four
moves that end or open it. -/
inductive ExchangeMove (e : Event) (s t : State) : Prop
  | stays (h : t.exchange = .closed ↔ s.exchange = .closed)
  | decoded (w : Byte) (hw : w ∈ decodingWords) (he : e = .op w) (hread : s.exchange ≠ .replyDue)
      (hclosed : t.exchange = .closed)
  | drained (he : e = .drain) (hunread : s.exchange ≠ .replyRead) (hclosed : t.exchange = .closed)
  | queried (bs : List Byte) (i : Instr) (rest : List Byte) (he : e = .command bs)
      (hbs : decode .driver bs = .ok (i, rest)) (hquery : (queryOf i).isSome) (hunread : s.exchange ≠ .replyRead)
      (hclosed : t.exchange = .closed)
  | sent (frame : List Byte) (he : e = .tx) (hreply : expectsReply frame = true) (hopen : t.exchange = .replyDue)
      (hwas : s.exchange = .closed) (hwire : t.link.wire = s.link.wire ++ frame)

theorem ExchangeMove.of_eq {e : Event} {s t : State} (h : t.exchange = s.exchange) : ExchangeMove e s t :=
  .stays (by rw [h])

theorem writeCtrl_exchangeMove {w : Byte} {s t : State} (h : runEvent (.op w) s = .next t) :
    ExchangeMove (.op w) s t := by
  obtain ⟨-, -, -, hexchange⟩ := writeCtrl_frame h
  by_cases hw : w ∈ decodingWords
  · rw [exchangeAfterOp_decoding hw] at hexchange
    split at hexchange
    next hdue => exact .of_eq (hexchange.trans hdue.symm)
    next hread => exact .decoded w hw rfl hread hexchange
  · have hother : decodingWords.contains w = false := by simpa using hw
    exact .of_eq (hexchange.trans (exchangeAfterOp_other hother _))

theorem drain_exchangeMove (s : State) : ExchangeMove .drain s (drainQueue s) := by
  by_cases hread : s.exchange = .replyRead
  · exact .of_eq (by rw [drainQueue_exchange, hread]; rfl)
  · exact .drained rfl hread (exchangeAfterDrain_eq_closed.2 hread)

theorem transmit_exchangeMove {s t : State} (h : transmit s = .next t) : ExchangeMove .tx s t := by
  obtain ⟨-, -, hclosed, frame, -, rfl⟩ := transmit_next s t h
  by_cases hreply : expectsReply frame = true
  · exact .sent frame rfl hreply (if_pos hreply) hclosed rfl
  · exact .of_eq ((if_neg hreply).trans hclosed.symm)

theorem runCommand_exchangeMove {bs : List Byte} {s t : State} (h : runCommand bs s = .next t) :
    ExchangeMove (.command bs) s t := by
  rw [runCommand] at h
  split at h
  next i rest hbs =>
    obtain ⟨hport, -⟩ := decodedBytesAreTheEncoding _ _ _ _ hbs
    cases hq : queryOf i with
    | none => exact .of_eq (exec_unsent_exchange hport hq h)
    | some q =>
      obtain ⟨hunread, hclosed⟩ := exec_query_exchange hq h
      exact .queried bs i rest rfl hbs (by rw [hq]; rfl) hunread hclosed
  · cases h

theorem exchangeAfterReset_eq_closed {e : Exchange} : exchangeAfterReset e = .closed ↔ e = .closed := by
  cases e <;> decide

theorem runEvent_exchangeMove {e : Event} {s t : State} (h : runEvent e s = .next t) : ExchangeMove e s t := by
  cases e with
  | op w => exact writeCtrl_exchangeMove h
  | wr | rd => cases h; exact .of_eq rfl
  | wb i b =>
    obtain ⟨-, rfl⟩ := writeInput_eq_next_iff.1 h
    exact .of_eq rfl
  | rb i =>
    obtain ⟨-, b, -, rfl⟩ := readOutput_next h
    exact .of_eq rfl
  | drain => cases h; exact drain_exchangeMove s
  | tx => exact transmit_exchangeMove h
  | rx n =>
    obtain ⟨-, rfl⟩ := receive_eq_next_iff.1 h
    exact .stays (exchangeAfterRead_ne_closed _ _)
  | command bs => exact runCommand_exchangeMove h
  | arrive bs =>
    cases (runArrival_eq bs s).symm.trans h
    exact .of_eq rfl
  | reset => cases h; exact .stays exchangeAfterReset_eq_closed

/-- Settles O57: each move either ends an exchange in one of the three ways, or opens one, and none does both. -/
theorem exchangeEndsByDecodingOrGivingUp : Obligations.ExchangeEndsByDecodingOrGivingUp := by
  intro e s t h
  cases runEvent_exchangeMove h with
  | stays hstays =>
    exact ⟨fun hopen hclosed => absurd (hstays.1 hclosed) hopen, fun hclosed hopen => absurd (hstays.2 hclosed) hopen⟩
  | decoded w hw he hread hclosed =>
    exact ⟨fun _ _ => .inl ⟨⟨w, hw, he⟩, hread⟩, fun _ hopen => absurd hclosed hopen⟩
  | drained he hunread hclosed =>
    exact ⟨fun _ _ => .inr (.inl ⟨he, hunread⟩), fun _ hopen => absurd hclosed hopen⟩
  | queried bs i rest he hbs hquery hunread hclosed =>
    exact ⟨fun _ _ => .inr (.inr ⟨bs, i, rest, he, hbs, hquery, hunread⟩), fun _ hopen => absurd hclosed hopen⟩
  | sent frame he hreply hopen hwas hwire =>
    exact ⟨fun hne => absurd hwas hne, fun _ _ => ⟨he, hopen, frame, hreply, hwire⟩⟩

/-! ### One command in flight (R266, R267, R274) -/

/-- The last operation left `frame` in `OBUF`, so that only an open exchange keeps the host from sending it (R248). -/
structure ReadyToSend (frame : List Byte) (s : State) : Prop where
  err : errOf s.codec.status = 0
  output : outputIs s frame
  nonempty : frame ≠ []

namespace ReadyToSend

variable {frame : List Byte} {s t : State}

/-- Only an operation or reset takes the frame away. -/
theorem of_operandsOnly (h : ReadyToSend frame s) (hkept : OperandsOnly s t) : ReadyToSend frame t := by
  refine ⟨by rw [hkept.status]; exact h.err, ?_, h.nonempty⟩
  rw [outputIs, hkept.olen, hkept.obuf]
  exact h.output

theorem transmit_refused (h : ReadyToSend frame s) (hopen : s.exchange ≠ .closed) :
    transmit s = .refused .exchangeOpen :=
  transmit_open s h.err (outputIs_olen_ne_zero h.output h.nonempty) hopen

theorem send_refused (h : ReadyToSend frame s) (hread : s.exchange = .replyRead) :
    runEvents [.drain, .tx] s = .refused .exchangeOpen := by
  have hdrained : ReadyToSend frame (drainQueue s) := h.of_operandsOnly (.of_codec_eq rfl rfl)
  refine (runEvents_scriptSend s).trans (hdrained.transmit_refused ?_)
  rw [drainQueue_exchange, hread]
  decide

/-- The `DRAIN` gives the exchange up, when its reply has not been read whole (R267). -/
theorem send_next (h : ReadyToSend frame s) (hunread : s.exchange ≠ .replyRead) :
    runEvents [.drain, .tx] s = .next (afterSend frame s) := by
  have hdrained : ReadyToSend frame (drainQueue s) := h.of_operandsOnly (.of_codec_eq rfl rfl)
  exact (runEvents_scriptSend s).trans <|
    transmit_ready _ frame hdrained.err hdrained.output hdrained.nonempty (exchangeAfterDrain_eq_closed.2 hunread)

end ReadyToSend

theorem expectsReply_ne_nil {frame : List Byte} (h : expectsReply frame = true) : frame ≠ [] := by
  rintro rfl
  cases h

/-- After the `TX` of a command that has a reply, its frame still stands in `OBUF`, and the reply is due. -/
theorem transmit_replyDue {frame : List Byte} {s t : State} (h : transmit s = .next t) (hout : outputIs s frame)
    (hreply : expectsReply frame = true) :
    ReadyToSend frame t ∧ t.exchange = .replyDue ∧ t.params = s.params := by
  have hkept := transmit_operandsOnly h
  obtain ⟨herr, -, -, sent, hsent, rfl⟩ := transmit_next s t h
  obtain rfl : frame = sent := Option.some.inj ((outputIs_read hout).symm.trans hsent)
  have hready : ReadyToSend frame s := ⟨herr, hout, expectsReply_ne_nil hreply⟩
  exact ⟨hready.of_operandsOnly hkept, if_pos hreply, rfl⟩

theorem runEvents_rx_legal {n : Nat} {s : State} (hn : 1 ≤ n) (hcap : n ≤ s.params.inCap) (es : List Event) :
    runEvents (.rx n :: es) s = runEvents es (afterReceive n s) := by
  rw [runEvents, runEvent_rx_legal hn hcap, andThen_next]

theorem afterReceive_operandsOnly {n : Nat} {s : State} (hn : 1 ≤ n) (hcap : n ≤ s.params.inCap) :
    OperandsOnly s (afterReceive n s) :=
  receive_operandsOnly (receive_eq_next_iff.2 ⟨⟨hn, hcap⟩, rfl⟩)

/-- A decoding word is the word of an operation that reads its input: `NOP` is none of the seven (R81). -/
theorem decodingWord_operation {w : Byte} (hw : w ∈ decodingWords) :
    ∃ i, decodeWord w = .ok i ∧ isOperation i ∧ wordOf i = w ∧ i ≠ .nop := by
  cases hi : decodeWord w with
  | error e => exact absurd (by rw [hi]; rfl) (decodingWords_legal w hw)
  | ok i =>
    obtain ⟨hop, hword⟩ := wordOf_of_decodeWord w i hi
    refine ⟨i, rfl, hop, hword, ?_⟩
    rintro rfl
    exact absurd (hword ▸ hw) (by decide)

/-- Whatever its result code, a decoding operation ends the exchange once an `RX` has read of the reply (R266). -/
theorem decoding_after_rx {n : Nat} {w : Byte} {s : State} (hwf : s.params.wf) (hcap : n ≤ s.params.inCap)
    (hw : w ∈ decodingWords) :
    ∃ t, runEvent (.op w) (afterReceive n s) = .next t ∧ t.exchange = .closed ∧ t.link.wire = s.link.wire ∧
      t.codec.opc = s.codec.opc := by
  obtain ⟨i, hi, hop, rfl, hn⟩ := decodingWord_operation hw
  obtain ⟨t, hexec, hlink, hexchange⟩ := exec_operation_next hop hn (afterReceive_inputIs hwf hcap)
  have hrun : runEvent (.op (wordOf i)) (afterReceive n s) = .next t := (writeCtrl_legal _ _ i hi).trans hexec
  obtain ⟨-, ⟨hopc, -⟩, -⟩ := operationsKeepOperands _ _ _ hrun
  exact ⟨t, hrun, hexchange.trans (exchangeAfterOp_read (List.contains_iff_mem.2 hw) _ _),
    by rw [hlink]; rfl, hopc⟩

/-- `WR ILEN, 0`, `OP BUILD`, `SEND` is the `CMD` of an empty payload and `SEND`, but for the write of `OPC` (R95). -/
theorem build_and_send {s : State} (hclosed : s.exchange = .closed) :
    ∃ t, runEvents [.wr (.ilen 0), .op 0x01, .drain, .tx] s = .next t ∧
      t.link.wire = s.link.wire ++ [0xAA, s.codec.opc, 0x00, 0xAA + s.codec.opc] := by
  obtain ⟨u, hframe, hu⟩ :=
    commandFrame_frameBuilt (payload := []) (s := s) s.codec.opc (Nat.zero_le _) (Nat.zero_le _)
  have hscript : runEvents [.wr (.ilen 0), .op 0x01, .drain, .tx] s =
      andThen (commandFrame s.codec.opc [] s) (runEvents scriptSend) := by
    rw [← runEvents_scriptCmd, ← runEvents_append]
    rfl
  rw [hscript, hframe, andThen_next, runEvents_scriptSend, hu.send, if_neg (by rw [hclosed]; decide), sealFrame_empty]
  exact ⟨_, rfl, by rw [← hu.link]; rfl⟩

/-- Settles O50: after the `TX` the frame is ready, and how far the exchange has come decides each script. -/
theorem oneCommandInFlight : Obligations.OneCommandInFlight := by
  intro s t frame htx hout hreply
  obtain ⟨hready, hdue, hparams⟩ := transmit_replyDue htx hout hreply
  refine ⟨hready.transmit_refused (by rw [hdue]; decide), ⟨_, hready.send_next (by rw [hdue]; decide), rfl⟩,
    fun n hn hcap hwf => ?_⟩
  rw [← hparams] at hcap hwf
  have hreceived : ReadyToSend frame (afterReceive n t) := hready.of_operandsOnly (afterReceive_operandsOnly hn hcap)
  have hexchange : (afterReceive n t).exchange =
      if (delivered n t.link).length = n then .replyRead else .replyShort := by
    rw [afterReceive_exchange, hdue, exchangeAfterRead_replyDue]
  simp only [runEvents_rx_legal hn hcap]
  refine ⟨?again, fun hall => ?whole, fun hfew => ?short, fun w hw => ?decoded⟩
  case again =>
    rw [runEvents_one]
    refine hreceived.transmit_refused ?_
    rw [hexchange]
    split <;> decide
  case whole => exact hreceived.send_refused (by rw [hexchange, if_pos hall])
  case short =>
    exact ⟨_, hreceived.send_next (by rw [hexchange, if_neg hfew.ne]; decide), rfl⟩
  case decoded =>
    obtain ⟨r, hdecode, hclosed, hwire, hopc⟩ := decoding_after_rx hwf hcap hw
    obtain ⟨u, hsend, hsent⟩ := build_and_send hclosed
    rw [hwire, hopc] at hsent
    exact ⟨u, by rw [runEvents, hdecode, andThen_next, hsend], hsent⟩

end Sys2Proof.Machine
